-- ==== Sys2Proof/Word.lean ====
section
/-! DEFINITION. The words the machine is made of (spec/00_scope.md R8, R17). -/

namespace Sys2Proof

/-- A register, the program counter, an address, an immediate or an instruction: 32 bits (R8). `+` and `-` on it are
modulo 2^32 (R17). `u(v)` of the spec is `v.toNat`, `s(v)` is `v.toInt`. -/
abbrev Word := BitVec 32

/-- The smallest addressable unit of the buffer: 8 bits (R8, R40). -/
abbrev Byte := BitVec 8

/-- The number of a general register, 0 to 31 (R20). -/
abbrev RegIdx := Fin 32

end Sys2Proof
end

