-- ==== Sys2Proof/Machine/Flags.lean ====
section
/-! DEFINITION. Comparisons. The hardware has no flags (spec/10_state.md R29): a comparison is written to a register as 1 or 0
(R18, R166) or decides a branch inside one instruction (R110). -/

namespace Sys2Proof.Machine

/-- `a == b` on the 32-bit patterns (R111). -/
def isEqual (a b : Word) : Bool := decide (a = b)

/-- `a <s b`, that is `s(a) < s(b)` (R18, R113). -/
def isLessSigned (a b : Word) : Bool := decide (a.toInt < b.toInt)

/-- `a <u b`, that is `u(a) < u(b)` (R18, R115). -/
def isLessUnsigned (a b : Word) : Bool := decide (a.toNat < b.toNat)

/-- A comparison as a register value: 1 or 0 (R18, R166). -/
def truthWord (c : Bool) : Word := if c then 1 else 0

end Sys2Proof.Machine
end

