-- ==== Sys2Proof/Config.lean ====
section
/-! DEFINITION. What is fixed for this hardware (spec/00_scope.md R8, R9). The parameters the spec leaves to the host
(MEM_SIZE, the initial memory, ENTRY_PC, ENTRY_REGS, the host's moves) are not constants here: MEM_SIZE and the memory are
fields of `Machine.State`, the rest are arguments of `Machine.State.launch` and `Machine.HostMove`. No value of this hardware
is left undefined after an instruction, so there is no free value. -/

namespace Sys2Proof.Config

/-- The number of byte addresses a 32-bit address can name, and the largest MEM_SIZE the spec allows (R8, R9). -/
def addressSpace : Nat := 4294967296

/-- The length of every instruction, in bytes (R60), and the sequential advance of `pc` (R93). -/
def instructionBytes : Nat := 4

end Sys2Proof.Config
end

