-- ==== Sys2Proof/Syntax.lean ====
section
/-! DEFINITION. The instructions, their groups and their formats (spec/30_encoding.md R62, R72; spec/opcode_table.json). -/

namespace Sys2Proof

/-- The six instruction formats (R63). -/
inductive Format where
  | R | I | S | B | U | J
deriving DecidableEq, Repr

/-- The nine opcode groups (R62). `op` is the register-register ALU, `opImm` the register-immediate ALU. -/
inductive Group where
  | lui | auipc | jal | jalr | branch | load | store | opImm | op
deriving DecidableEq, Repr

/-- One constructor per row of spec/opcode_table.json. An immediate operand is the 32-bit value of the decoded record
(R64): already assembled, shifted and sign-extended. `Instr.wf` says which values an encoding can carry. -/
inductive Instr where
  | lui   (rd : RegIdx) (imm : Word)
  | auipc (rd : RegIdx) (imm : Word)
  | jal   (rd : RegIdx) (imm : Word)
  | jalr  (rd rs1 : RegIdx) (imm : Word)
  | beq   (rs1 rs2 : RegIdx) (imm : Word)
  | bne   (rs1 rs2 : RegIdx) (imm : Word)
  | blt   (rs1 rs2 : RegIdx) (imm : Word)
  | bge   (rs1 rs2 : RegIdx) (imm : Word)
  | bltu  (rs1 rs2 : RegIdx) (imm : Word)
  | bgeu  (rs1 rs2 : RegIdx) (imm : Word)
  | lb    (rd rs1 : RegIdx) (imm : Word)
  | lh    (rd rs1 : RegIdx) (imm : Word)
  | lw    (rd rs1 : RegIdx) (imm : Word)
  | lbu   (rd rs1 : RegIdx) (imm : Word)
  | lhu   (rd rs1 : RegIdx) (imm : Word)
  | sb    (rs1 rs2 : RegIdx) (imm : Word)
  | sh    (rs1 rs2 : RegIdx) (imm : Word)
  | sw    (rs1 rs2 : RegIdx) (imm : Word)
  | addi  (rd rs1 : RegIdx) (imm : Word)
  | slli  (rd rs1 : RegIdx) (imm : Word)
  | slti  (rd rs1 : RegIdx) (imm : Word)
  | sltiu (rd rs1 : RegIdx) (imm : Word)
  | xori  (rd rs1 : RegIdx) (imm : Word)
  | srli  (rd rs1 : RegIdx) (imm : Word)
  | ori   (rd rs1 : RegIdx) (imm : Word)
  | andi  (rd rs1 : RegIdx) (imm : Word)
  | add   (rd rs1 rs2 : RegIdx)
  | sub   (rd rs1 rs2 : RegIdx)
  | sll   (rd rs1 rs2 : RegIdx)
  | slt   (rd rs1 rs2 : RegIdx)
  | sltu  (rd rs1 rs2 : RegIdx)
  | xor   (rd rs1 rs2 : RegIdx)
  | srl   (rd rs1 rs2 : RegIdx)
  | sra   (rd rs1 rs2 : RegIdx)
  | or    (rd rs1 rs2 : RegIdx)
  | and   (rd rs1 rs2 : RegIdx)
deriving DecidableEq, Repr

/-- The opcode group an instruction belongs to (R72). -/
def Instr.group : Instr → Group
  | .lui .. => .lui
  | .auipc .. => .auipc
  | .jal .. => .jal
  | .jalr .. => .jalr
  | .beq .. => .branch
  | .bne .. => .branch
  | .blt .. => .branch
  | .bge .. => .branch
  | .bltu .. => .branch
  | .bgeu .. => .branch
  | .lb .. => .load
  | .lh .. => .load
  | .lw .. => .load
  | .lbu .. => .load
  | .lhu .. => .load
  | .sb .. => .store
  | .sh .. => .store
  | .sw .. => .store
  | .addi .. => .opImm
  | .slli .. => .opImm
  | .slti .. => .opImm
  | .sltiu .. => .opImm
  | .xori .. => .opImm
  | .srli .. => .opImm
  | .ori .. => .opImm
  | .andi .. => .opImm
  | .add .. => .op
  | .sub .. => .op
  | .sll .. => .op
  | .slt .. => .op
  | .sltu .. => .op
  | .xor .. => .op
  | .srl .. => .op
  | .sra .. => .op
  | .or .. => .op
  | .and .. => .op

/-- The register an instruction names as its destination; BRANCH and STORE instructions have none (R20, R95). -/
def Instr.dest : Instr → Option RegIdx
  | .lui rd _ => some rd
  | .auipc rd _ => some rd
  | .jal rd _ => some rd
  | .jalr rd _ _ => some rd
  | .beq .. => none
  | .bne .. => none
  | .blt .. => none
  | .bge .. => none
  | .bltu .. => none
  | .bgeu .. => none
  | .lb rd _ _ => some rd
  | .lh rd _ _ => some rd
  | .lw rd _ _ => some rd
  | .lbu rd _ _ => some rd
  | .lhu rd _ _ => some rd
  | .sb .. => none
  | .sh .. => none
  | .sw .. => none
  | .addi rd _ _ => some rd
  | .slli rd _ _ => some rd
  | .slti rd _ _ => some rd
  | .sltiu rd _ _ => some rd
  | .xori rd _ _ => some rd
  | .srli rd _ _ => some rd
  | .ori rd _ _ => some rd
  | .andi rd _ _ => some rd
  | .add rd _ _ => some rd
  | .sub rd _ _ => some rd
  | .sll rd _ _ => some rd
  | .slt rd _ _ => some rd
  | .sltu rd _ _ => some rd
  | .xor rd _ _ => some rd
  | .srl rd _ _ => some rd
  | .sra rd _ _ => some rd
  | .or rd _ _ => some rd
  | .and rd _ _ => some rd

end Sys2Proof
end

