-- ==== Sys2Proof/WellFormed.lean ====
section
/-! DEFINITION. Which instructions an encoding can carry: a register number is in range by its type, an immediate must be a
value its format assembles (spec/30_encoding.md R65 to R69). -/

namespace Sys2Proof

/-- An I- or S-immediate: twelve bits, sign-extended: -2048 to 2047 (R65, R66). -/
def immFits12 (imm : Word) : Bool := decide (-2048 ≤ imm.toInt) && decide (imm.toInt ≤ 2047)

/-- A B-immediate: even, -4096 to 4094 (R67). -/
def immFitsB (imm : Word) : Bool :=
  decide (-4096 ≤ imm.toInt) && decide (imm.toInt ≤ 4094) && decide (imm.toNat % 2 = 0)

/-- A U-immediate: the low twelve bits are 0 (R68). -/
def immFitsU (imm : Word) : Bool := decide (imm.toNat % 4096 = 0)

/-- A J-immediate: even, -1048576 to 1048574 (R69). -/
def immFitsJ (imm : Word) : Bool :=
  decide (-1048576 ≤ imm.toInt) && decide (imm.toInt ≤ 1048574) && decide (imm.toNat % 2 = 0)

/-- The instruction can be written in its encoding. -/
def Instr.wf : Instr → Bool
  | .lui _ imm => immFitsU imm
  | .auipc _ imm => immFitsU imm
  | .jal _ imm => immFitsJ imm
  | .jalr _ _ imm => immFits12 imm
  | .beq _ _ imm => immFitsB imm
  | .bne _ _ imm => immFitsB imm
  | .blt _ _ imm => immFitsB imm
  | .bge _ _ imm => immFitsB imm
  | .bltu _ _ imm => immFitsB imm
  | .bgeu _ _ imm => immFitsB imm
  | .lb _ _ imm => immFits12 imm
  | .lh _ _ imm => immFits12 imm
  | .lw _ _ imm => immFits12 imm
  | .lbu _ _ imm => immFits12 imm
  | .lhu _ _ imm => immFits12 imm
  | .sb _ _ imm => immFits12 imm
  | .sh _ _ imm => immFits12 imm
  | .sw _ _ imm => immFits12 imm
  | .addi _ _ imm => immFits12 imm
  | .slli _ _ imm => immFits12 imm
  | .slti _ _ imm => immFits12 imm
  | .sltiu _ _ imm => immFits12 imm
  | .xori _ _ imm => immFits12 imm
  | .srli _ _ imm => immFits12 imm
  | .ori _ _ imm => immFits12 imm
  | .andi _ _ imm => immFits12 imm
  | .add .. => true
  | .sub .. => true
  | .sll .. => true
  | .slt .. => true
  | .sltu .. => true
  | .xor .. => true
  | .srl .. => true
  | .sra .. => true
  | .or .. => true
  | .and .. => true

end Sys2Proof
end

