-- ==== Sys2Proof/Decode.lean ====
section
/-! DEFINITION. The Decoder: byte order of a word, field positions, immediates, router, decoded record, selection, and the
encoder (spec/30_encoding.md, spec/20_memory.md R43). Decoding is total on words and on byte lists and rejects by name. -/

namespace Sys2Proof

/-- The word whose four bytes, from the lowest address up, are the arguments (R43, R44). -/
def wordOfBytes (b0 b1 b2 b3 : Byte) : Word := b3 ++ b2 ++ b1 ++ b0

/-- The byte `v[8k+7 : 8k]`, stored at offset `k` (R43, R45). -/
def byteOfWord (v : Word) (k : Nat) : Byte := v.extractLsb' (8 * k) 8

/-- `sext_N(v)` of R18 (R70): copies of the top bit fill the higher bits. -/
def sext {n : Nat} (v : BitVec n) : Word := v.signExtend 32

/-- `zext_N(v)` of R18: zeros fill the higher bits. -/
def zext {n : Nat} (v : BitVec n) : Word := v.setWidth 32

/-- The register a 5-bit field names (R20). -/
def regOfBits (b : BitVec 5) : RegIdx := b.toFin

/-- The 5-bit field that names a register. -/
def bitsOfReg (r : RegIdx) : BitVec 5 := BitVec.ofFin r

/-- `w[6:0]` (R61). -/
def opcodeOf (w : Word) : BitVec 7 := w.extractLsb' 0 7
/-- `w[11:7]` (R63). -/
def rdOf (w : Word) : RegIdx := regOfBits (w.extractLsb' 7 5)
/-- `w[14:12]` (R63). -/
def funct3Of (w : Word) : BitVec 3 := w.extractLsb' 12 3
/-- `w[19:15]` (R63). -/
def rs1Of (w : Word) : RegIdx := regOfBits (w.extractLsb' 15 5)
/-- `w[24:20]` (R63). -/
def rs2Of (w : Word) : RegIdx := regOfBits (w.extractLsb' 20 5)
/-- `w[31:25]` (R63). -/
def funct7Of (w : Word) : BitVec 7 := w.extractLsb' 25 7

/-- The I-immediate, `sext_12(w[31:20])` (R65). -/
def immI (w : Word) : Word := sext (w.extractLsb' 20 12)

/-- The S-immediate, `sext_12(w[31:25] ++ w[11:7])` (R66). -/
def immS (w : Word) : Word := sext (w.extractLsb' 25 7 ++ w.extractLsb' 7 5)

/-- The B-immediate, `sext_13(w[31] ++ w[7] ++ w[30:25] ++ w[11:8] ++ 0b0)` (R67). -/
def immB (w : Word) : Word :=
  sext (w.extractLsb' 31 1 ++ w.extractLsb' 7 1 ++ w.extractLsb' 25 6 ++ w.extractLsb' 8 4 ++ 0#1)

/-- The U-immediate, `w[31:12] ++ 0x000` (R68). -/
def immU (w : Word) : Word := w.extractLsb' 12 20 ++ 0#12

/-- The J-immediate, `sext_21(w[31] ++ w[19:12] ++ w[20] ++ w[30:21] ++ 0b0)` (R69). -/
def immJ (w : Word) : Word :=
  sext (w.extractLsb' 31 1 ++ w.extractLsb' 12 8 ++ w.extractLsb' 20 1 ++ w.extractLsb' 21 10 ++ 0#1)

/-- The router: the group an opcode selects, none for the other 119 values (R62). -/
def route (op : BitVec 7) : Option Group :=
  match op with
  | 0b0110111#7 => some .lui
  | 0b0010111#7 => some .auipc
  | 0b1101111#7 => some .jal
  | 0b1100111#7 => some .jalr
  | 0b1100011#7 => some .branch
  | 0b0000011#7 => some .load
  | 0b0100011#7 => some .store
  | 0b0010011#7 => some .opImm
  | 0b0110011#7 => some .op
  | _ => none

/-- The opcode of a group (R62). -/
def groupOpcode : Group → BitVec 7
  | .lui => 0b0110111#7
  | .auipc => 0b0010111#7
  | .jal => 0b1101111#7
  | .jalr => 0b1100111#7
  | .branch => 0b1100011#7
  | .load => 0b0000011#7
  | .store => 0b0100011#7
  | .opImm => 0b0010011#7
  | .op => 0b0110011#7

/-- The format of a group (R62). -/
def groupFormat : Group → Format
  | .lui => .U
  | .auipc => .U
  | .jal => .J
  | .jalr => .I
  | .branch => .B
  | .load => .I
  | .store => .S
  | .opImm => .I
  | .op => .R

/-- The decoded record of R64. -/
structure DecodedRecord where
  format : Format
  funct7 : BitVec 7
  funct3 : BitVec 3
  rd     : RegIdx
  rs1    : RegIdx
  rs2    : RegIdx
  imm    : Word
deriving DecidableEq, Repr

/-- The table of R64, row by row: a field a format does not have is 0. -/
def extract (f : Format) (w : Word) : DecodedRecord :=
  match f with
  | .R => ⟨.R, funct7Of w, funct3Of w, rdOf w, rs1Of w, rs2Of w, 0⟩
  | .I => ⟨.I, 0, funct3Of w, rdOf w, rs1Of w, 0, immI w⟩
  | .S => ⟨.S, 0, funct3Of w, 0, rs1Of w, rs2Of w, immS w⟩
  | .B => ⟨.B, 0, funct3Of w, 0, rs1Of w, rs2Of w, immB w⟩
  | .U => ⟨.U, 0, 0, rdOf w, 0, 0, immU w⟩
  | .J => ⟨.J, 0, 0, rdOf w, 0, 0, immJ w⟩

/-- The seven conditions of R74 under which a word is no instruction, in that order. -/
inductive Malformed where
  /-- `w[6:0]` selects no group (R170 to R173). -/
  | unknownOpcode
  /-- JALR with funct3 other than 0. -/
  | jalrFunct3
  /-- BRANCH with funct3 2 or 3. -/
  | branchFunct3
  /-- LOAD with funct3 3, 6 or 7. -/
  | loadFunct3
  /-- STORE with funct3 3 to 7. -/
  | storeFunct3
  /-- OP with funct7 neither 0 nor 0b0100000. -/
  | opFunct7
  /-- OP with funct7 0b0100000 and funct3 neither 0 nor 5. -/
  | opFunct3
deriving DecidableEq, Repr

/-- The JALR row of R72. -/
def selectJalr (d : DecodedRecord) : Except Malformed Instr :=
  match d.funct3 with
  | 0b000#3 => .ok (.jalr d.rd d.rs1 d.imm)
  | _ => .error .jalrFunct3

/-- The BRANCH rows of R72. -/
def selectBranch (d : DecodedRecord) : Except Malformed Instr :=
  match d.funct3 with
  | 0b000#3 => .ok (.beq d.rs1 d.rs2 d.imm)
  | 0b001#3 => .ok (.bne d.rs1 d.rs2 d.imm)
  | 0b100#3 => .ok (.blt d.rs1 d.rs2 d.imm)
  | 0b101#3 => .ok (.bge d.rs1 d.rs2 d.imm)
  | 0b110#3 => .ok (.bltu d.rs1 d.rs2 d.imm)
  | 0b111#3 => .ok (.bgeu d.rs1 d.rs2 d.imm)
  | _ => .error .branchFunct3

/-- The LOAD rows of R72. -/
def selectLoad (d : DecodedRecord) : Except Malformed Instr :=
  match d.funct3 with
  | 0b000#3 => .ok (.lb d.rd d.rs1 d.imm)
  | 0b001#3 => .ok (.lh d.rd d.rs1 d.imm)
  | 0b010#3 => .ok (.lw d.rd d.rs1 d.imm)
  | 0b100#3 => .ok (.lbu d.rd d.rs1 d.imm)
  | 0b101#3 => .ok (.lhu d.rd d.rs1 d.imm)
  | _ => .error .loadFunct3

/-- The STORE rows of R72. -/
def selectStore (d : DecodedRecord) : Except Malformed Instr :=
  match d.funct3 with
  | 0b000#3 => .ok (.sb d.rs1 d.rs2 d.imm)
  | 0b001#3 => .ok (.sh d.rs1 d.rs2 d.imm)
  | 0b010#3 => .ok (.sw d.rs1 d.rs2 d.imm)
  | _ => .error .storeFunct3

/-- The OP-IMM rows of R72. The decoded funct7 of this group is always 0 and takes no part (R140, R149). -/
def selectOpImm (d : DecodedRecord) : Except Malformed Instr :=
  match d.funct3 with
  | 0b000#3 => .ok (.addi d.rd d.rs1 d.imm)
  | 0b001#3 => .ok (.slli d.rd d.rs1 d.imm)
  | 0b010#3 => .ok (.slti d.rd d.rs1 d.imm)
  | 0b011#3 => .ok (.sltiu d.rd d.rs1 d.imm)
  | 0b100#3 => .ok (.xori d.rd d.rs1 d.imm)
  | 0b101#3 => .ok (.srli d.rd d.rs1 d.imm)
  | 0b110#3 => .ok (.ori d.rd d.rs1 d.imm)
  | 0b111#3 => .ok (.andi d.rd d.rs1 d.imm)

/-- The OP rows of R72 with funct7 = 0. -/
def selectOpPlain (d : DecodedRecord) : Except Malformed Instr :=
  match d.funct3 with
  | 0b000#3 => .ok (.add d.rd d.rs1 d.rs2)
  | 0b001#3 => .ok (.sll d.rd d.rs1 d.rs2)
  | 0b010#3 => .ok (.slt d.rd d.rs1 d.rs2)
  | 0b011#3 => .ok (.sltu d.rd d.rs1 d.rs2)
  | 0b100#3 => .ok (.xor d.rd d.rs1 d.rs2)
  | 0b101#3 => .ok (.srl d.rd d.rs1 d.rs2)
  | 0b110#3 => .ok (.or d.rd d.rs1 d.rs2)
  | 0b111#3 => .ok (.and d.rd d.rs1 d.rs2)

/-- The OP rows of R72 with funct7 = 0b0100000. -/
def selectOpAlternate (d : DecodedRecord) : Except Malformed Instr :=
  match d.funct3 with
  | 0b000#3 => .ok (.sub d.rd d.rs1 d.rs2)
  | 0b101#3 => .ok (.sra d.rd d.rs1 d.rs2)
  | _ => .error .opFunct3

/-- The OP rows of R72: funct7 first, then funct3 (R155). -/
def selectOp (d : DecodedRecord) : Except Malformed Instr :=
  match d.funct7 with
  | 0b0000000#7 => selectOpPlain d
  | 0b0100000#7 => selectOpAlternate d
  | _ => .error .opFunct7

/-- The validity check and the choice of the instruction, by group (R72, R74). -/
def select (g : Group) (d : DecodedRecord) : Except Malformed Instr :=
  match g with
  | .lui => .ok (.lui d.rd d.imm)
  | .auipc => .ok (.auipc d.rd d.imm)
  | .jal => .ok (.jal d.rd d.imm)
  | .jalr => selectJalr d
  | .branch => selectBranch d
  | .load => selectLoad d
  | .store => selectStore d
  | .opImm => selectOpImm d
  | .op => selectOp d

/-- The decoder: router, field extractor, selection (R62, R64, R72, R74). -/
def decode (w : Word) : Except Malformed Instr :=
  match route (opcodeOf w) with
  | none => .error .unknownOpcode
  | some g => select g (extract (groupFormat g) w)

/-- Why a byte list is no instruction. -/
inductive DecodeError where
  /-- Fewer than the four bytes every instruction has (R60). -/
  | truncated
  /-- Four bytes whose word is malformed (R74). -/
  | malformed (why : Malformed)
deriving DecidableEq, Repr

/-- Decode the first instruction of a byte list, lowest address first, and give the bytes after it (R43, R60). -/
def decodeBytes (bytes : List Byte) : Except DecodeError (Instr × List Byte) :=
  match bytes with
  | b0 :: b1 :: b2 :: b3 :: rest =>
    match decode (wordOfBytes b0 b1 b2 b3) with
    | .ok i => .ok (i, rest)
    | .error why => .error (.malformed why)
  | _ => .error .truncated

/-- The R row of R71. -/
def encodeR (funct7 : BitVec 7) (funct3 : BitVec 3) (rd rs1 rs2 : RegIdx) (op : BitVec 7) : Word :=
  funct7 ++ bitsOfReg rs2 ++ bitsOfReg rs1 ++ funct3 ++ bitsOfReg rd ++ op

/-- The I row of R71. -/
def encodeI (funct3 : BitVec 3) (rd rs1 : RegIdx) (imm : Word) (op : BitVec 7) : Word :=
  imm.extractLsb' 0 12 ++ bitsOfReg rs1 ++ funct3 ++ bitsOfReg rd ++ op

/-- The S row of R71. -/
def encodeS (funct3 : BitVec 3) (rs1 rs2 : RegIdx) (imm : Word) (op : BitVec 7) : Word :=
  imm.extractLsb' 5 7 ++ bitsOfReg rs2 ++ bitsOfReg rs1 ++ funct3 ++ imm.extractLsb' 0 5 ++ op

/-- The B row of R71. -/
def encodeB (funct3 : BitVec 3) (rs1 rs2 : RegIdx) (imm : Word) (op : BitVec 7) : Word :=
  imm.extractLsb' 12 1 ++ imm.extractLsb' 5 6 ++ bitsOfReg rs2 ++ bitsOfReg rs1 ++ funct3 ++ imm.extractLsb' 1 4
    ++ imm.extractLsb' 11 1 ++ op

/-- The U row of R71. -/
def encodeU (rd : RegIdx) (imm : Word) (op : BitVec 7) : Word :=
  imm.extractLsb' 12 20 ++ bitsOfReg rd ++ op

/-- The J row of R71. -/
def encodeJ (rd : RegIdx) (imm : Word) (op : BitVec 7) : Word :=
  imm.extractLsb' 20 1 ++ imm.extractLsb' 1 10 ++ imm.extractLsb' 11 1 ++ imm.extractLsb' 12 8 ++ bitsOfReg rd ++ op

/-- The word of an instruction, from the tables of R62, R71 and R72. -/
def encode : Instr → Word
  | .lui rd imm => encodeU rd imm (groupOpcode .lui)
  | .auipc rd imm => encodeU rd imm (groupOpcode .auipc)
  | .jal rd imm => encodeJ rd imm (groupOpcode .jal)
  | .jalr rd rs1 imm => encodeI 0b000 rd rs1 imm (groupOpcode .jalr)
  | .beq rs1 rs2 imm => encodeB 0b000 rs1 rs2 imm (groupOpcode .branch)
  | .bne rs1 rs2 imm => encodeB 0b001 rs1 rs2 imm (groupOpcode .branch)
  | .blt rs1 rs2 imm => encodeB 0b100 rs1 rs2 imm (groupOpcode .branch)
  | .bge rs1 rs2 imm => encodeB 0b101 rs1 rs2 imm (groupOpcode .branch)
  | .bltu rs1 rs2 imm => encodeB 0b110 rs1 rs2 imm (groupOpcode .branch)
  | .bgeu rs1 rs2 imm => encodeB 0b111 rs1 rs2 imm (groupOpcode .branch)
  | .lb rd rs1 imm => encodeI 0b000 rd rs1 imm (groupOpcode .load)
  | .lh rd rs1 imm => encodeI 0b001 rd rs1 imm (groupOpcode .load)
  | .lw rd rs1 imm => encodeI 0b010 rd rs1 imm (groupOpcode .load)
  | .lbu rd rs1 imm => encodeI 0b100 rd rs1 imm (groupOpcode .load)
  | .lhu rd rs1 imm => encodeI 0b101 rd rs1 imm (groupOpcode .load)
  | .sb rs1 rs2 imm => encodeS 0b000 rs1 rs2 imm (groupOpcode .store)
  | .sh rs1 rs2 imm => encodeS 0b001 rs1 rs2 imm (groupOpcode .store)
  | .sw rs1 rs2 imm => encodeS 0b010 rs1 rs2 imm (groupOpcode .store)
  | .addi rd rs1 imm => encodeI 0b000 rd rs1 imm (groupOpcode .opImm)
  | .slli rd rs1 imm => encodeI 0b001 rd rs1 imm (groupOpcode .opImm)
  | .slti rd rs1 imm => encodeI 0b010 rd rs1 imm (groupOpcode .opImm)
  | .sltiu rd rs1 imm => encodeI 0b011 rd rs1 imm (groupOpcode .opImm)
  | .xori rd rs1 imm => encodeI 0b100 rd rs1 imm (groupOpcode .opImm)
  | .srli rd rs1 imm => encodeI 0b101 rd rs1 imm (groupOpcode .opImm)
  | .ori rd rs1 imm => encodeI 0b110 rd rs1 imm (groupOpcode .opImm)
  | .andi rd rs1 imm => encodeI 0b111 rd rs1 imm (groupOpcode .opImm)
  | .add rd rs1 rs2 => encodeR 0b0000000 0b000 rd rs1 rs2 (groupOpcode .op)
  | .sub rd rs1 rs2 => encodeR 0b0100000 0b000 rd rs1 rs2 (groupOpcode .op)
  | .sll rd rs1 rs2 => encodeR 0b0000000 0b001 rd rs1 rs2 (groupOpcode .op)
  | .slt rd rs1 rs2 => encodeR 0b0000000 0b010 rd rs1 rs2 (groupOpcode .op)
  | .sltu rd rs1 rs2 => encodeR 0b0000000 0b011 rd rs1 rs2 (groupOpcode .op)
  | .xor rd rs1 rs2 => encodeR 0b0000000 0b100 rd rs1 rs2 (groupOpcode .op)
  | .srl rd rs1 rs2 => encodeR 0b0000000 0b101 rd rs1 rs2 (groupOpcode .op)
  | .sra rd rs1 rs2 => encodeR 0b0100000 0b101 rd rs1 rs2 (groupOpcode .op)
  | .or rd rs1 rs2 => encodeR 0b0000000 0b110 rd rs1 rs2 (groupOpcode .op)
  | .and rd rs1 rs2 => encodeR 0b0000000 0b111 rd rs1 rs2 (groupOpcode .op)

/-- The four bytes of an instruction as the buffer holds them, lowest address first (R43). -/
def encodeBytes (i : Instr) : List Byte := (List.range Config.instructionBytes).map (byteOfWord (encode i))

/-- The word whose low `nbits` bits are those of `w`, the higher ones 0. -/
def tableWord (nbits w : Nat) : Word := BitVec.ofNat 32 (w % 2 ^ nbits)

/-- What `decodeBytes` reads from the four bytes of an opcode-table row's word, laid out as the buffer holds them. A row wider
than the one instruction length of R60 is no instruction. -/
def decodeTableWord (nbits w : Nat) : Option Instr :=
  if nbits ≤ 32 then
    match decodeBytes ((List.range Config.instructionBytes).map (byteOfWord (tableWord nbits w))) with
    | .ok (i, _) => some i
    | .error _ => none
  else none

end Sys2Proof
end

