-- ==== Sys2Proof/Machine/Memory.lean ====
section
/-! DEFINITION. The byte buffer behind the bus port (spec/20_memory.md): `MEM_SIZE` bytes, held as a sorted list of the bytes
that are not 0. Every byte array of every size has exactly one such form, so the initial contents the host chooses (R9, R223)
are no restriction of the model. -/

namespace Sys2Proof.Machine

/-- The buffer: its size in bytes (`MEM_SIZE`, R9, R42) and its listed bytes. -/
structure Memory where
  size  : Nat
  cells : List Host.Cell
deriving DecidableEq, Repr

/-- What a byte of the buffer that is not listed reads as. A convention of the representation; for `State.reset` it is a
DESIGN CHOICE (log 2): the spec gives no initial contents. -/
def Memory.unlisted : Byte := 0

/-- MEM_SIZE in `State.reset`: the largest the spec allows (R9), so that the whole address space exists there.
DESIGN CHOICE (log 1). -/
def Memory.launchSize : Nat := Config.addressSpace

/-- The byte listed at an address, or what an unlisted one reads as. -/
def lookupCell : List Host.Cell → Nat → Byte
  | [], _ => Memory.unlisted
  | (a', b) :: rest, a => if a = a' then b else lookupCell rest a

/-- List a byte at an address, in order, in place of the one listed there. -/
def insertCell : List Host.Cell → Nat → Byte → List Host.Cell
  | [], a, b => [(a, b)]
  | (a', b') :: rest, a, b =>
    if a < a' then (a, b) :: (a', b') :: rest
    else if a = a' then (a, b) :: rest
    else (a', b') :: insertCell rest a b

/-- List nothing at an address. -/
def eraseCell (cells : List Host.Cell) (a : Nat) : List Host.Cell := cells.filter (fun c => decide (c.1 ≠ a))

/-- Store a byte, keeping the canonical form. -/
def storeCell (cells : List Host.Cell) (a : Nat) (b : Byte) : List Host.Cell :=
  if b = Memory.unlisted then eraseCell cells a else insertCell cells a b

/-- Addresses strictly rising. -/
def cellsSorted : List Host.Cell → Bool
  | [] => true
  | [_] => true
  | (a, _) :: (a', b') :: rest => decide (a < a') && cellsSorted ((a', b') :: rest)

/-- The canonical form: a size the spec allows, addresses strictly rising and inside the buffer, no byte listed that an
unlisted address would read as. -/
def Memory.wf (m : Memory) : Bool :=
  decide (m.size ≤ Config.addressSpace) && cellsSorted m.cells
    && m.cells.all (fun c => decide (c.1 < m.size) && decide (c.2 ≠ Memory.unlisted))

/-- One byte of the buffer. -/
def Memory.byteAt (m : Memory) (a : Nat) : Byte := lookupCell m.cells a

/-- The buffer with one byte replaced. -/
def Memory.setByte (m : Memory) (a : Nat) (b : Byte) : Memory := { m with cells := storeCell m.cells a b }

/-- The buffer with the bytes listed from an address up. -/
def Memory.setBytes (m : Memory) (a : Nat) : List Byte → Memory
  | [] => m
  | b :: rest => Memory.setBytes (m.setByte a b) (a + 1) rest

/-- The widths an access can have (R48). -/
inductive Width where
  | byte | half | word
deriving DecidableEq, Repr

/-- The number of bytes an access moves (R48). -/
def widthBytes : Width → Nat
  | .byte => 1
  | .half => 2
  | .word => 4

/-- R42: `u(a) + n <= MEM_SIZE`, the sum taken in unbounded integers. -/
def Memory.inRange (m : Memory) (a : Word) (n : Width) : Bool := decide (a.toNat + widthBytes n ≤ m.size)

/-- The little-endian value of the bytes from an address up, zero-extended (R43, R44). -/
def Memory.assemble (m : Memory) (a : Nat) : Width → Word
  | .byte => zext (m.byteAt a)
  | .half => zext (m.byteAt (a + 1) ++ m.byteAt a)
  | .word => wordOfBytes (m.byteAt a) (m.byteAt (a + 1)) (m.byteAt (a + 2)) (m.byteAt (a + 3))

/-- `MemRead(a, n)` (R44); `none` is `OutOfBounds`. -/
def Memory.read (m : Memory) (a : Word) (n : Width) : Option Word :=
  if m.inRange a n then some (m.assemble a.toNat n) else none

/-- `MemWrite(a, n, v)` (R45); `none` is `OutOfBounds`, with no byte written. -/
def Memory.write (m : Memory) (a : Word) (n : Width) (v : Word) : Option Memory :=
  if m.inRange a n then some (m.setBytes a.toNat ((List.range (widthBytes n)).map (byteOfWord v))) else none

end Sys2Proof.Machine
end

