-- ==== Sys2Proof/Machine/State.lean ====
section
/-! DEFINITION. The state of the machine, the reasons a step can stop, and the state after reset (spec/10_state.md,
spec/60_exceptions.md R201, spec/70_reset_and_hazards.md). -/

namespace Sys2Proof.Machine

/-- The whole state (spec/10_state.md) with the buffer the CORE acts on (spec/20_memory.md R40). There is no flag, no control
register and no other hidden state (R29, R30). -/
structure State where
  /-- `x[0]` to `x[31]` (R20). Entry 0 is never read: `x[0]` reads as 0 whatever stands there (R21; `State.readReg`). -/
  regs  : Vector Word 32
  /-- The program counter (R24). -/
  pc    : Word
  /-- The dirty-register marker (R27, R28). -/
  dirty : Option RegIdx
  /-- The buffer of the bus port and its size MEM_SIZE (R9, R40). -/
  mem   : Memory
deriving DecidableEq, Repr

/-- The two fault kinds of R201. A fault ends the command (R200); the state it leaves is `State.afterFault` (R203). -/
inductive Fault where
  /-- Raised by the dispatch of a word that is no instruction (`executeBody`; R74, R170 to R173). Safe: the spec's own fault. -/
  | malformedInstruction
  /-- Raised by the fetch of `step`, and by LOAD and STORE instructions, for an access not wholly inside the buffer (R42, R202).
  Safe: the spec's own fault. -/
  | outOfBounds
deriving DecidableEq, Repr

/-- Reasons the MODEL would stop where the hardware goes on. Nothing raises one: every instruction has its meaning. -/
inductive Refusal where
  /-- An instruction that has no meaning yet, by its mnemonic. Raised by no arm of `exec`. It would be safe: the run stops. -/
  | notModelled (mnemonic : String)
deriving DecidableEq, Repr

/-- The machine right after reset: registers 0 and no dirty marker as R32 and R220 say. The spec gives no value for `pc`, for
MEM_SIZE and for the buffer's bytes: 0 (log 3), 2^32 (log 1), all 0 (log 2), each a DESIGN CHOICE. -/
def State.reset : State where
  regs  := Vector.replicate 32 0
  pc    := 0
  dirty := none
  mem   := { size := Memory.launchSize, cells := [] }

end Sys2Proof.Machine
end

