-- ==== Sys2Proof/Machine/Ops.lean ====
section
/-! DEFINITION. The named operations over registers and memory, the end of an instruction, and what a fault leaves
(spec/40_step_and_dispatch.md, spec/60_exceptions.md). -/

namespace Sys2Proof.Machine

/-- `x[i]` (R18): register 0 reads as 0 at every moment (R21). -/
def State.readReg (s : State) (i : RegIdx) : Word := if i = 0 then 0 else s.regs[i]

/-- `x[i] <- v` (R18): a write to register 0 stores nothing (R21). -/
def State.writeReg (s : State) (i : RegIdx) (v : Word) : State :=
  if i = 0 then s else { s with regs := s.regs.set i v }

/-- `pc <- t` (R18, R26: no check of any kind). -/
def State.setPc (s : State) (t : Word) : State := { s with pc := t }

/-- `dirty <- None` (R92 step 1). -/
def State.clearDirty (s : State) : State := { s with dirty := none }

/-- `dirty <- Some(i)` (R95; also for register 0, R28). -/
def State.markDirty (s : State) (i : RegIdx) : State := { s with dirty := some i }

/-- The address after this instruction, `pc + 4` modulo 2^32 (R25, R93). -/
def State.nextPc (s : State) : Word := s.pc + BitVec.ofNat 32 Config.instructionBytes

/-- `MemRead` on the buffer (R44). -/
def State.load (s : State) (a : Word) (n : Width) : Option Word := s.mem.read a n

/-- `MemWrite` on the buffer (R45). -/
def State.store (s : State) (a : Word) (n : Width) (v : Word) : Option State :=
  (s.mem.write a n v).map (fun m => { s with mem := m })

/-- The instruction word at `pc`: `MemRead(pc, 4)` (R47). -/
def State.fetch (s : State) : Option Word := s.load s.pc .word

/-- Raise a fault (R200): the command ends; no handler runs, nothing is saved (R205). -/
def raise (f : Fault) : Host.Outcome State Fault Refusal := .fault f

/-- The state a faulted command leaves (R203): only the marker, cleared by the command's first action, may differ. -/
def State.afterFault (s : State) : State := s.clearDirty

/-- Steps 7 to 9 of R92 for a register-writing group: `x[rd] <- v; dirty <- Some(rd); pc <- next`. -/
def finishWrite (s : State) (rd : RegIdx) (v next : Word) : Host.Outcome State Fault Refusal :=
  .next (((s.writeReg rd v).markDirty rd).setPc next)

/-- Steps 8 and 9 of R92 for BRANCH and STORE: no register is written and `dirty` stays `None` (R95). -/
def finishNoWrite (s : State) (next : Word) : Host.Outcome State Fault Refusal :=
  .next (s.clearDirty.setPc next)

/-- The end of a LOAD (R120): the value read goes to `rd`, or the access was out of bounds. -/
def finishLoad (s : State) (rd : RegIdx) (v : Option Word) : Host.Outcome State Fault Refusal :=
  match v with
  | some x => finishWrite s rd x s.nextPc
  | none => raise .outOfBounds

/-- The end of a STORE (R130): the buffer is written, or the access was out of bounds and no byte is. -/
def finishStore (s : State) (a : Word) (n : Width) (v : Word) : Host.Outcome State Fault Refusal :=
  match s.store a n v with
  | some t => finishNoWrite t s.nextPc
  | none => raise .outOfBounds

end Sys2Proof.Machine
end

