-- ==== Sys2Proof/Machine/Operands.lean ====
section
/-! DEFINITION. The operand forms (spec/40_step_and_dispatch.md R94, R97): every register is read from the state before any
write. -/

namespace Sys2Proof.Machine

/-- The effective address of a LOAD or STORE, `x[rs1] + imm` modulo 2^32 (R120, R130, D14). -/
def effectiveAddress (s : State) (rs1 : RegIdx) (imm : Word) : Word := s.readReg rs1 + imm

/-- The target of JALR, `x[rs1] + imm` modulo 2^32; bit 0 is kept (R106). -/
def absoluteTarget (s : State) (rs1 : RegIdx) (imm : Word) : Word := s.readReg rs1 + imm

/-- `pc + imm` modulo 2^32, `pc` being the address of this instruction: the AUIPC value and the target of JAL and of a taken
BRANCH (R101, R105, R110). -/
def pcRelative (s : State) (imm : Word) : Word := s.pc + imm

/-- Where a BRANCH goes (R110). -/
def branchNext (s : State) (taken : Bool) (imm : Word) : Word := if taken then pcRelative s imm else s.nextPc

/-- The amount of a shift: the low five bits of the second operand, register or immediate alike (R147, R158, D5). -/
def shiftAmount (o : Word) : Nat := (o.extractLsb' 0 5).toNat

/-- The sign-extended byte of `LB` (R121): `MemRead` gives it zero-extended. -/
def signedByte (v : Word) : Word := sext (v.extractLsb' 0 8)

/-- The sign-extended halfword of `LH` (R122). -/
def signedHalf (v : Word) : Word := sext (v.extractLsb' 0 16)

/-- The zero-extended byte of `LBU` (R124). -/
def unsignedByte (v : Word) : Word := zext (v.extractLsb' 0 8)

/-- The zero-extended halfword of `LHU` (R125). -/
def unsignedHalf (v : Word) : Word := zext (v.extractLsb' 0 16)

end Sys2Proof.Machine
end

