-- ==== Sys2Proof/Machine/Alu.lean ====
section
/-! DEFINITION. The ALU that OP and OP-IMM share (spec/40_step_and_dispatch.md R97, spec/46_alu_imm.md R140,
spec/47_alu_reg.md R155, R166): `a` is `x[rs1]`, `o` the immediate or `x[rs2]`. -/

namespace Sys2Proof.Machine

/-- Addition modulo 2^32 (R156). -/
def aluAdd (a o : Word) : Word := a + o
/-- Subtraction modulo 2^32 (R157). -/
def aluSub (a o : Word) : Word := a - o
/-- Left shift, zeros enter at bit 0 (R158). -/
def aluSll (a o : Word) : Word := a <<< shiftAmount o
/-- Signed less-than, 1 or 0 (R159). -/
def aluSlt (a o : Word) : Word := truthWord (isLessSigned a o)
/-- Unsigned less-than, 1 or 0 (R160). -/
def aluSltu (a o : Word) : Word := truthWord (isLessUnsigned a o)
/-- Exclusive or (R161). -/
def aluXor (a o : Word) : Word := a ^^^ o
/-- Logical right shift, zeros enter at bit 31 (R162). -/
def aluSrl (a o : Word) : Word := a >>> shiftAmount o
/-- Arithmetic right shift, copies of bit 31 enter at bit 31 (R163). -/
def aluSra (a o : Word) : Word := a.sshiftRight (shiftAmount o)
/-- Or (R164). -/
def aluOr (a o : Word) : Word := a ||| o
/-- And (R165). -/
def aluAnd (a o : Word) : Word := a &&& o

/-- The end of an OP-IMM or OP instruction (R140, R155): the result to `rd`, then `pc + 4`. -/
def finishAlu (s : State) (rd : RegIdx) (v : Word) : Host.Outcome State Fault Refusal := finishWrite s rd v s.nextPc

end Sys2Proof.Machine
end

