-- ==== Sys2Proof/Machine/AluImm.lean ====
section
/-! DEFINITION. The OP-IMM group (spec/46_alu_imm.md R140): the second operand is the immediate. -/

namespace Sys2Proof.Machine

/-- ADDI (R141): `x[rd] <- a + o`. -/
def execAddi (rd rs1 : RegIdx) (imm : Word) (s : State) : Host.Outcome State Fault Refusal :=
  finishAlu s rd (aluAdd (s.readReg rs1) imm)

/-- SLLI (R147): `x[rd] <- a << o[4:0]`. -/
def execSlli (rd rs1 : RegIdx) (imm : Word) (s : State) : Host.Outcome State Fault Refusal :=
  finishAlu s rd (aluSll (s.readReg rs1) imm)

/-- SLTI (R142): `x[rd] <- (s(a) < s(o)) ? 1 : 0`. -/
def execSlti (rd rs1 : RegIdx) (imm : Word) (s : State) : Host.Outcome State Fault Refusal :=
  finishAlu s rd (aluSlt (s.readReg rs1) imm)

/-- SLTIU (R143): `x[rd] <- (u(a) < u(o)) ? 1 : 0`. -/
def execSltiu (rd rs1 : RegIdx) (imm : Word) (s : State) : Host.Outcome State Fault Refusal :=
  finishAlu s rd (aluSltu (s.readReg rs1) imm)

/-- XORI (R144): `x[rd] <- a ^ o`. -/
def execXori (rd rs1 : RegIdx) (imm : Word) (s : State) : Host.Outcome State Fault Refusal :=
  finishAlu s rd (aluXor (s.readReg rs1) imm)

/-- SRLI (R148, R149): `x[rd] <- a >>u o[4:0]`. -/
def execSrli (rd rs1 : RegIdx) (imm : Word) (s : State) : Host.Outcome State Fault Refusal :=
  finishAlu s rd (aluSrl (s.readReg rs1) imm)

/-- ORI (R145): `x[rd] <- a | o`. -/
def execOri (rd rs1 : RegIdx) (imm : Word) (s : State) : Host.Outcome State Fault Refusal :=
  finishAlu s rd (aluOr (s.readReg rs1) imm)

/-- ANDI (R146): `x[rd] <- a & o`. -/
def execAndi (rd rs1 : RegIdx) (imm : Word) (s : State) : Host.Outcome State Fault Refusal :=
  finishAlu s rd (aluAnd (s.readReg rs1) imm)

end Sys2Proof.Machine
end

