-- ==== Sys2Proof/Machine/AluReg.lean ====
section
/-! DEFINITION. The OP group (spec/47_alu_reg.md R155): the second operand is `x[rs2]`. -/

namespace Sys2Proof.Machine

/-- ADD (R156): `x[rd] <- a + b`. -/
def execAdd (rd rs1 rs2 : RegIdx) (s : State) : Host.Outcome State Fault Refusal :=
  finishAlu s rd (aluAdd (s.readReg rs1) (s.readReg rs2))

/-- SUB (R157): `x[rd] <- a - b`. -/
def execSub (rd rs1 rs2 : RegIdx) (s : State) : Host.Outcome State Fault Refusal :=
  finishAlu s rd (aluSub (s.readReg rs1) (s.readReg rs2))

/-- SLL (R158): `x[rd] <- a << b[4:0]`. -/
def execSll (rd rs1 rs2 : RegIdx) (s : State) : Host.Outcome State Fault Refusal :=
  finishAlu s rd (aluSll (s.readReg rs1) (s.readReg rs2))

/-- SLT (R159): `x[rd] <- (s(a) < s(b)) ? 1 : 0`. -/
def execSlt (rd rs1 rs2 : RegIdx) (s : State) : Host.Outcome State Fault Refusal :=
  finishAlu s rd (aluSlt (s.readReg rs1) (s.readReg rs2))

/-- SLTU (R160): `x[rd] <- (u(a) < u(b)) ? 1 : 0`. -/
def execSltu (rd rs1 rs2 : RegIdx) (s : State) : Host.Outcome State Fault Refusal :=
  finishAlu s rd (aluSltu (s.readReg rs1) (s.readReg rs2))

/-- XOR (R161): `x[rd] <- a ^ b`. -/
def execXor (rd rs1 rs2 : RegIdx) (s : State) : Host.Outcome State Fault Refusal :=
  finishAlu s rd (aluXor (s.readReg rs1) (s.readReg rs2))

/-- SRL (R162): `x[rd] <- a >>u b[4:0]`. -/
def execSrl (rd rs1 rs2 : RegIdx) (s : State) : Host.Outcome State Fault Refusal :=
  finishAlu s rd (aluSrl (s.readReg rs1) (s.readReg rs2))

/-- SRA (R163): `x[rd] <- a >>s b[4:0]`. -/
def execSra (rd rs1 rs2 : RegIdx) (s : State) : Host.Outcome State Fault Refusal :=
  finishAlu s rd (aluSra (s.readReg rs1) (s.readReg rs2))

/-- OR (R164): `x[rd] <- a | b`. -/
def execOr (rd rs1 rs2 : RegIdx) (s : State) : Host.Outcome State Fault Refusal :=
  finishAlu s rd (aluOr (s.readReg rs1) (s.readReg rs2))

/-- AND (R165): `x[rd] <- a & b`. -/
def execAnd (rd rs1 rs2 : RegIdx) (s : State) : Host.Outcome State Fault Refusal :=
  finishAlu s rd (aluAnd (s.readReg rs1) (s.readReg rs2))

end Sys2Proof.Machine
end

