-- ==== Sys2Proof/Machine/Branch.lean ====
section
/-! DEFINITION. The conditional branches (spec/43_branch.md R110). -/

namespace Sys2Proof.Machine

/-- BEQ (R111): taken when `a == b`. -/
def execBeq (rs1 rs2 : RegIdx) (imm : Word) (s : State) : Host.Outcome State Fault Refusal :=
  finishNoWrite s (branchNext s (isEqual (s.readReg rs1) (s.readReg rs2)) imm)

/-- BNE (R112): taken when `a != b`. -/
def execBne (rs1 rs2 : RegIdx) (imm : Word) (s : State) : Host.Outcome State Fault Refusal :=
  finishNoWrite s (branchNext s (!isEqual (s.readReg rs1) (s.readReg rs2)) imm)

/-- BLT (R113): taken when `s(a) < s(b)`. -/
def execBlt (rs1 rs2 : RegIdx) (imm : Word) (s : State) : Host.Outcome State Fault Refusal :=
  finishNoWrite s (branchNext s (isLessSigned (s.readReg rs1) (s.readReg rs2)) imm)

/-- BGE (R114): taken when `s(a) >= s(b)`. -/
def execBge (rs1 rs2 : RegIdx) (imm : Word) (s : State) : Host.Outcome State Fault Refusal :=
  finishNoWrite s (branchNext s (!isLessSigned (s.readReg rs1) (s.readReg rs2)) imm)

/-- BLTU (R115): taken when `u(a) < u(b)`. -/
def execBltu (rs1 rs2 : RegIdx) (imm : Word) (s : State) : Host.Outcome State Fault Refusal :=
  finishNoWrite s (branchNext s (isLessUnsigned (s.readReg rs1) (s.readReg rs2)) imm)

/-- BGEU (R116): taken when `u(a) >= u(b)`. -/
def execBgeu (rs1 rs2 : RegIdx) (imm : Word) (s : State) : Host.Outcome State Fault Refusal :=
  finishNoWrite s (branchNext s (!isLessUnsigned (s.readReg rs1) (s.readReg rs2)) imm)

end Sys2Proof.Machine
end

