-- ==== Sys2Proof/Machine/Jump.lean ====
section
/-! DEFINITION. JAL and JALR (spec/42_jal_jalr.md). -/

namespace Sys2Proof.Machine

/-- JAL (R105): `x[rd] <- pc + 4; pc <- pc + imm`. -/
def execJal (rd : RegIdx) (imm : Word) (s : State) : Host.Outcome State Fault Refusal :=
  finishWrite s rd s.nextPc (pcRelative s imm)

/-- JALR (R106): `x[rd] <- pc + 4; pc <- x[rs1] + imm`, `x[rs1]` read before `rd` is written (R94), bit 0 kept. -/
def execJalr (rd rs1 : RegIdx) (imm : Word) (s : State) : Host.Outcome State Fault Refusal :=
  finishWrite s rd s.nextPc (absoluteTarget s rs1 imm)

end Sys2Proof.Machine
end

