-- ==== Sys2Proof/Machine/Load.lean ====
section
/-! DEFINITION. The loads (spec/44_load.md R120). -/

namespace Sys2Proof.Machine

/-- LB (R121): `x[rd] <- sext_8(MemRead(ea, 1))`. -/
def execLb (rd rs1 : RegIdx) (imm : Word) (s : State) : Host.Outcome State Fault Refusal :=
  finishLoad s rd ((s.load (effectiveAddress s rs1 imm) .byte).map signedByte)

/-- LH (R122): `x[rd] <- sext_16(MemRead(ea, 2))`. -/
def execLh (rd rs1 : RegIdx) (imm : Word) (s : State) : Host.Outcome State Fault Refusal :=
  finishLoad s rd ((s.load (effectiveAddress s rs1 imm) .half).map signedHalf)

/-- LW (R123): `x[rd] <- MemRead(ea, 4)`. -/
def execLw (rd rs1 : RegIdx) (imm : Word) (s : State) : Host.Outcome State Fault Refusal :=
  finishLoad s rd (s.load (effectiveAddress s rs1 imm) .word)

/-- LBU (R124): `x[rd] <- zext_8(MemRead(ea, 1))`. -/
def execLbu (rd rs1 : RegIdx) (imm : Word) (s : State) : Host.Outcome State Fault Refusal :=
  finishLoad s rd ((s.load (effectiveAddress s rs1 imm) .byte).map unsignedByte)

/-- LHU (R125): `x[rd] <- zext_16(MemRead(ea, 2))`. -/
def execLhu (rd rs1 : RegIdx) (imm : Word) (s : State) : Host.Outcome State Fault Refusal :=
  finishLoad s rd ((s.load (effectiveAddress s rs1 imm) .half).map unsignedHalf)

end Sys2Proof.Machine
end

