-- ==== Sys2Proof/Machine/Store.lean ====
section
/-! DEFINITION. The stores (spec/45_store.md R130). -/

namespace Sys2Proof.Machine

/-- SB (R131): `MemWrite(ea, 1, x[rs2])`. -/
def execSb (rs1 rs2 : RegIdx) (imm : Word) (s : State) : Host.Outcome State Fault Refusal :=
  finishStore s (effectiveAddress s rs1 imm) .byte (s.readReg rs2)

/-- SH (R132): `MemWrite(ea, 2, x[rs2])`. -/
def execSh (rs1 rs2 : RegIdx) (imm : Word) (s : State) : Host.Outcome State Fault Refusal :=
  finishStore s (effectiveAddress s rs1 imm) .half (s.readReg rs2)

/-- SW (R133): `MemWrite(ea, 4, x[rs2])`. -/
def execSw (rs1 rs2 : RegIdx) (imm : Word) (s : State) : Host.Outcome State Fault Refusal :=
  finishStore s (effectiveAddress s rs1 imm) .word (s.readReg rs2)

end Sys2Proof.Machine
end

