-- ==== Sys2Proof/Machine/UpperImm.lean ====
section
/-! DEFINITION. LUI and AUIPC (spec/41_lui_auipc.md). -/

namespace Sys2Proof.Machine

/-- LUI (R100): `x[rd] <- imm`. -/
def execLui (rd : RegIdx) (imm : Word) (s : State) : Host.Outcome State Fault Refusal :=
  finishWrite s rd imm s.nextPc

/-- AUIPC (R101): `x[rd] <- pc + imm`. -/
def execAuipc (rd : RegIdx) (imm : Word) (s : State) : Host.Outcome State Fault Refusal :=
  finishWrite s rd (pcRelative s imm) s.nextPc

end Sys2Proof.Machine
end

