-- ==== Sys2Proof/Machine/Execute.lean ====
section
/-! DEFINITION. `execute(word)` and the part of `step()` it shares (spec/40_step_and_dispatch.md R90 to R92). -/

namespace Sys2Proof.Machine

/-- `execute_body(w)` of R92. -/
def executeBody (w : Word) (s : State) : Host.Outcome State Fault Refusal :=
  match decode w with
  | .ok i => exec i s.clearDirty
  | .error _ => raise .malformedInstruction

/-- `execute(word)` (R91): `dirty <- None`, then the body. DESIGN CHOICE (log 8): it runs so from every state, before the first
`reset()` and before the host wrote `pc` too, where the spec gives it no meaning (R222). -/
def executeWord (w : Word) (s : State) : Host.Outcome State Fault Refusal := executeBody w s.clearDirty

/-- `step()` (R90): `dirty <- None`, the fetch, then the body. DESIGN CHOICE (log 8): it runs so from every state, before the first
`reset()` and before the host wrote `pc` too, where the spec gives it no meaning (R32, R222). -/
def stepOnce (s : State) : Host.Outcome State Fault Refusal :=
  match s.clearDirty.fetch with
  | some w => executeBody w s.clearDirty
  | none => raise .outOfBounds

/-- A state whose next fetch is in range: itself where the four bytes at `pc` lie in the buffer; otherwise `pc` at 0 and a
buffer of at least four bytes (log 12). -/
def State.fetchable (s : State) : State :=
  if s.mem.inRange s.pc .word then s
  else { s with pc := 0, mem := { s.mem with size := max s.mem.size Config.instructionBytes } }

/-- The four bytes of a word placed at `pc`, lowest address first (R43). -/
def State.placeAtPc (s : State) (w : Word) : State :=
  { s with mem := s.mem.setBytes s.pc.toNat ((List.range Config.instructionBytes).map (byteOfWord w)) }

end Sys2Proof.Machine
end

