-- ==== Sys2Proof/Machine/Step.lean ====
section
/-! DEFINITION. One step of the machine: the `step()` command (spec/40_step_and_dispatch.md R90). -/

namespace Sys2Proof.Machine

/-- `step()` (R90), from every state (log 8). -/
def step (s : State) : Host.Outcome State Fault Refusal := stepOnce s

/-- The host's load of one instruction where the next `step` fetches (logs 11 and 12). -/
def State.withFetchWord (s : State) (nbits w : Nat) : State := s.fetchable.placeAtPc (tableWord nbits w)

end Sys2Proof.Machine
end

