-- ==== Sys2Proof/Machine/Disassemble.lean ====
section
/-! DEFINITION. `disassemble(word) -> text` (spec/49_disassembler.md): a pure function of the word, which takes the router, the
field extraction and the selection from the executor's own decoder (R182) and never faults (R180). -/

namespace Sys2Proof.Machine

/-- The table of R22. -/
def abiNames : List String :=
  ["zero", "ra", "sp", "gp", "tp", "t0", "t1", "t2", "s0", "s1", "a0", "a1", "a2", "a3", "a4", "a5"] ++
  ["a6", "a7", "s2", "s3", "s4", "s5", "s6", "s7", "s8", "s9", "s10", "s11", "t3", "t4", "t5", "t6"]

/-- A register as its ABI name (R183). -/
def abiName (r : RegIdx) : String := abiNames.getD r.val ""

/-- `s(imm)` in base 10, a leading minus for negative values, no leading zeros (R184). -/
def signedDecimal (imm : Word) : String := Int.repr imm.toInt

/-- `imm[31:12]` as 0x and lower-case hexadecimal digits, no leading zeros (R184). -/
def upperHex (imm : Word) : String := "0x" ++ String.ofList (Nat.toDigits 16 (imm.extractLsb' 12 20).toNat)

/-- The sentinel (R181). -/
def badInstruction : String := "bad instruction"

/-- The mnemonics of R72. -/
def mnemonicText : Instr → String
  | .lui .. => "lui"
  | .auipc .. => "auipc"
  | .jal .. => "jal"
  | .jalr .. => "jalr"
  | .beq .. => "beq"
  | .bne .. => "bne"
  | .blt .. => "blt"
  | .bge .. => "bge"
  | .bltu .. => "bltu"
  | .bgeu .. => "bgeu"
  | .lb .. => "lb"
  | .lh .. => "lh"
  | .lw .. => "lw"
  | .lbu .. => "lbu"
  | .lhu .. => "lhu"
  | .sb .. => "sb"
  | .sh .. => "sh"
  | .sw .. => "sw"
  | .addi .. => "addi"
  | .slli .. => "slli"
  | .slti .. => "slti"
  | .sltiu .. => "sltiu"
  | .xori .. => "xori"
  | .srli .. => "srli"
  | .ori .. => "ori"
  | .andi .. => "andi"
  | .add .. => "add"
  | .sub .. => "sub"
  | .sll .. => "sll"
  | .slt .. => "slt"
  | .sltu .. => "sltu"
  | .xor .. => "xor"
  | .srl .. => "srl"
  | .sra .. => "sra"
  | .or .. => "or"
  | .and .. => "and"

/-- `R, H` (R185). -/
def operandsUpper (rd : RegIdx) (imm : Word) : String := abiName rd ++ ", " ++ upperHex imm

/-- `R, D` (R186). -/
def operandsJump (rd : RegIdx) (imm : Word) : String := abiName rd ++ ", " ++ signedDecimal imm

/-- `R, D(R)` (R187, R188, R190). -/
def operandsMemory (r base : RegIdx) (imm : Word) : String :=
  abiName r ++ ", " ++ signedDecimal imm ++ "(" ++ abiName base ++ ")"

/-- `R, R, D` (R188, R189). -/
def operandsImmediate (r1 r2 : RegIdx) (imm : Word) : String :=
  abiName r1 ++ ", " ++ abiName r2 ++ ", " ++ signedDecimal imm

/-- `R, R, R` (R191). -/
def operandsRegister (r1 r2 r3 : RegIdx) : String := abiName r1 ++ ", " ++ abiName r2 ++ ", " ++ abiName r3

/-- The operand text of an instruction, by its group's layout (R185 to R191). -/
def operandText : Instr → String
  | .lui rd imm => operandsUpper rd imm
  | .auipc rd imm => operandsUpper rd imm
  | .jal rd imm => operandsJump rd imm
  | .jalr rd rs1 imm => operandsMemory rd rs1 imm
  | .beq rs1 rs2 imm => operandsImmediate rs1 rs2 imm
  | .bne rs1 rs2 imm => operandsImmediate rs1 rs2 imm
  | .blt rs1 rs2 imm => operandsImmediate rs1 rs2 imm
  | .bge rs1 rs2 imm => operandsImmediate rs1 rs2 imm
  | .bltu rs1 rs2 imm => operandsImmediate rs1 rs2 imm
  | .bgeu rs1 rs2 imm => operandsImmediate rs1 rs2 imm
  | .lb rd rs1 imm => operandsMemory rd rs1 imm
  | .lh rd rs1 imm => operandsMemory rd rs1 imm
  | .lw rd rs1 imm => operandsMemory rd rs1 imm
  | .lbu rd rs1 imm => operandsMemory rd rs1 imm
  | .lhu rd rs1 imm => operandsMemory rd rs1 imm
  | .sb rs1 rs2 imm => operandsMemory rs2 rs1 imm
  | .sh rs1 rs2 imm => operandsMemory rs2 rs1 imm
  | .sw rs1 rs2 imm => operandsMemory rs2 rs1 imm
  | .addi rd rs1 imm => operandsImmediate rd rs1 imm
  | .slli rd rs1 imm => operandsImmediate rd rs1 imm
  | .slti rd rs1 imm => operandsImmediate rd rs1 imm
  | .sltiu rd rs1 imm => operandsImmediate rd rs1 imm
  | .xori rd rs1 imm => operandsImmediate rd rs1 imm
  | .srli rd rs1 imm => operandsImmediate rd rs1 imm
  | .ori rd rs1 imm => operandsImmediate rd rs1 imm
  | .andi rd rs1 imm => operandsImmediate rd rs1 imm
  | .add rd rs1 rs2 => operandsRegister rd rs1 rs2
  | .sub rd rs1 rs2 => operandsRegister rd rs1 rs2
  | .sll rd rs1 rs2 => operandsRegister rd rs1 rs2
  | .slt rd rs1 rs2 => operandsRegister rd rs1 rs2
  | .sltu rd rs1 rs2 => operandsRegister rd rs1 rs2
  | .xor rd rs1 rs2 => operandsRegister rd rs1 rs2
  | .srl rd rs1 rs2 => operandsRegister rd rs1 rs2
  | .sra rd rs1 rs2 => operandsRegister rd rs1 rs2
  | .or rd rs1 rs2 => operandsRegister rd rs1 rs2
  | .and rd rs1 rs2 => operandsRegister rd rs1 rs2

/-- One space follows the mnemonic (R185). -/
def instrText (i : Instr) : String := mnemonicText i ++ " " ++ operandText i

/-- `disassemble(word)` (R180): the text of the instruction, or the sentinel on exactly the malformed words (R181). -/
def disassemble (w : Word) : String :=
  match decode w with
  | .ok i => instrText i
  | .error _ => badInstruction

end Sys2Proof.Machine
end

