-- ==== Sys2Proof/Machine/HostPort.lean ====
section
/-! DEFINITION. The ports of the CORE: commands and responses, observation, host writes, boot (spec/00_scope.md R10 to R16,
spec/60_exceptions.md R201 to R206, spec/70_reset_and_hazards.md). The host moves between commands only (R226). -/

namespace Sys2Proof.Machine

/-- The commands of R11. -/
inductive Command where
  | reset
  | step
  | execute (w : Word)
  | disassemble (w : Word)
deriving DecidableEq, Repr

/-- What a command answers: the response of R12 for `step` and `execute`, the text of `disassemble`. DESIGN CHOICE (log 19): `reset`
answers `done`; the spec gives it no response. `refused` is the model's own and no command answers it (log 15). -/
inductive Reply where
  | done
  | fault (f : Fault)
  | text (t : String)
  | refused (r : Refusal)
deriving DecidableEq, Repr

/-- The numeric response codes of R201; a text has none. -/
def replyCode : Reply → Option Nat
  | .done => some 0
  | .fault .malformedInstruction => some 1
  | .fault .outOfBounds => some 2
  | .text _ => none
  | .refused _ => none

/-- `reset()` (R220, R221): registers 0, no dirty marker; `pc` and the buffer keep their values. -/
def State.resetCommand (s : State) : State := { s with regs := Vector.replicate 32 0, dirty := none }

/-- The state and the reply a `step` or `execute` leaves: a fault leaves `State.afterFault` (R203). -/
def settle (s : State) (o : Host.Outcome State Fault Refusal) : State × Reply :=
  match o with
  | .next t => (t, .done)
  | .fault f => (s.afterFault, .fault f)
  | .refused r => (s, .refused r)

/-- One command on the command port (R11): the state after it and its reply. DESIGN CHOICE (log 19): `reset()` answers `done`
(code 0); R12 gives a response for `step` and `execute` only, and of `reset` only that it never faults. DESIGN CHOICE (log 8):
`step` and `execute` run in every state, before the first `reset()` too (R222). -/
def command (c : Command) (s : State) : State × Reply :=
  match c with
  | .reset => (s.resetCommand, .done)
  | .step => settle s (step s)
  | .execute w => settle s (executeWord w s)
  | .disassemble w => (s, .text (disassemble w))

/-- The host's moves between commands: the host write port (R14) and the buffer (R52). -/
inductive HostMove where
  | writePc (v : Word)
  | writeReg (i : RegIdx) (v : Word)
  | writeByte (a : Nat) (b : Byte)
deriving DecidableEq, Repr

/-- A host move (R14, R52): `dirty` is never changed, a write to `x[0]` has no effect. An address outside the buffer names no
byte, so a write there changes nothing (log 6). -/
def hostMove (m : HostMove) (s : State) : State :=
  match m with
  | .writePc v => s.setPc v
  | .writeReg i v => s.writeReg i v
  | .writeByte a b => if a < s.mem.size then { s with mem := s.mem.setByte a b } else s

/-- The dirty marker on the observation port: bit 5 valid, bits 4:0 the index (R28). -/
def dirtyPort : Option RegIdx → BitVec 6
  | none => 0
  | some i => 1#1 ++ bitsOfReg i

/-- The observation port (R13). -/
structure Observation where
  x     : List Word
  pc    : Word
  dirty : BitVec 6
deriving DecidableEq, Repr

/-- What the host reads between commands (R13); reading changes nothing. -/
def observe (s : State) : Observation := ⟨(List.finRange 32).map s.readReg, s.pc, dirtyPort s.dirty⟩

/-- What the host does, one thing at a time (R10, R16). -/
inductive HostAction where
  | command (c : Command)
  | move (m : HostMove)
deriving DecidableEq, Repr

/-- The state after a list of host actions, and the replies of its commands in order (R10, R99, R206: the CORE keeps no fault
latch, so a command after a fault is performed like any other). -/
def session : List HostAction → State → State × List Reply
  | [], s => (s, [])
  | .command c :: rest, s =>
    let r := command c s
    let q := session rest r.1
    (q.1, r.2 :: q.2)
  | .move m :: rest, s => session rest (hostMove m s)

/-- The host's writes of ENTRY_REGS, in order (R9, R223). -/
def writeEntryRegs (s : State) : List (RegIdx × Word) → State
  | [] => s
  | (i, v) :: rest => writeEntryRegs (s.writeReg i v) rest

/-- The boot sequence of R223 on a CORE in any state: attach and load the buffer, `reset()`, `pc <- ENTRY_PC`, ENTRY_REGS. -/
def State.boot (s : State) (image : Memory) (entryPc : Word) (entryRegs : List (RegIdx × Word)) : State :=
  writeEntryRegs ((({ s with mem := image } : State).resetCommand).setPc entryPc) entryRegs

/-- The launch premise of R224 as a state: what the boot sequence leaves, whatever the power-on state was. -/
def State.launch (image : Memory) (entryPc : Word) (entryRegs : List (RegIdx × Word)) : State :=
  State.reset.boot image entryPc entryRegs

end Sys2Proof.Machine
end

