-- ==== Sys2Proof/Safety.lean ====
section
/-! DEFINITION. The vocabulary of the claims: the invariant, what a completed instruction leaves, which words are no
instruction, which bytes an instruction touches. Written from the rules, not from the meanings. -/

namespace Sys2Proof.Machine

/-- What every step keeps: the buffer in its canonical form with a size the spec allows (R9), and nothing stored at entry 0 of
the register file (R21: a write to `x[0]` is discarded, not stored). -/
abbrev State.Inv (s : State) : Prop := s.mem.wf = true ∧ s.regs[(0 : RegIdx)] = 0

/-- A state in which no later `step` or `execute` can be refused or leave the invariant: the runs the claims speak of (R224). -/
abbrev SafeState (s : State) : Prop := s.Inv

/-- What a completed register-writing instruction leaves (R95): `v` in `rd` (nothing when `rd` is 0, R21), every other
register, every byte and the size as before, the marker at `rd` (also 0, R28), `pc` at `next`. -/
structure WritesRegister (s t : State) (rd : RegIdx) (v next : Word) : Prop where
  dest   : t.readReg rd = if rd = 0 then 0 else v
  others : ∀ r, r ≠ rd → t.readReg r = s.readReg r
  pc     : t.pc = next
  dirty  : t.dirty = some rd
  bytes  : ∀ a, t.mem.byteAt a = s.mem.byteAt a
  size   : t.mem.size = s.mem.size

/-- What a completed BRANCH leaves (R95, R110): only `pc`, and no marker. -/
structure WritesNothing (s t : State) (next : Word) : Prop where
  regs  : ∀ r, t.readReg r = s.readReg r
  pc    : t.pc = next
  dirty : t.dirty = none
  bytes : ∀ a, t.mem.byteAt a = s.mem.byteAt a
  size  : t.mem.size = s.mem.size

/-- What a completed STORE of `n` bytes at `ea` leaves (R45, R130): byte `k` of `v` at `ea + k`, every other byte, every
register and the size as before, no marker, `pc` at `next`. -/
structure StoresBytes (s t : State) (ea : Word) (n : Nat) (v next : Word) : Prop where
  stored : ∀ k, k < n → t.mem.byteAt (ea.toNat + k) = BitVec.ofNat 8 (v.toNat / 256 ^ k)
  others : ∀ a, (a < ea.toNat ∨ ea.toNat + n ≤ a) → t.mem.byteAt a = s.mem.byteAt a
  regs   : ∀ r, t.readReg r = s.readReg r
  pc     : t.pc = next
  dirty  : t.dirty = none
  size   : t.mem.size = s.mem.size

/-- What a faulted command leaves (R203): everything but the marker, which is cleared. -/
structure FaultLeaves (s t : State) : Prop where
  regs  : ∀ r, t.readReg r = s.readReg r
  pc    : t.pc = s.pc
  dirty : t.dirty = none
  bytes : ∀ a, t.mem.byteAt a = s.mem.byteAt a
  size  : t.mem.size = s.mem.size

/-- What a LOAD of `n` bytes does (R120): in range, `v` goes to `rd`; otherwise it faults. The address is the meaning's own
`effectiveAddress`, and is `x[rs1] + imm` modulo 2^32. -/
structure LoadResult (i : Instr) (s : State) (rd rs1 : RegIdx) (imm : Word) (n : Nat) (v next : Word) : Prop where
  address : (effectiveAddress s rs1 imm).toNat = ((s.readReg rs1).toNat + imm.toNat) % 4294967296
  inside  : (effectiveAddress s rs1 imm).toNat + n ≤ s.mem.size → ∃ t, exec i s = .next t ∧ WritesRegister s t rd v next
  outside : s.mem.size < (effectiveAddress s rs1 imm).toNat + n → exec i s = .fault .outOfBounds

/-- What a STORE of `n` bytes does (R130): in range, the low `n` bytes of `x[rs2]` are stored; otherwise it faults. -/
structure StoreResult (i : Instr) (s : State) (rs1 rs2 : RegIdx) (imm : Word) (n : Nat) (next : Word) : Prop where
  address : (effectiveAddress s rs1 imm).toNat = ((s.readReg rs1).toNat + imm.toNat) % 4294967296
  inside  : (effectiveAddress s rs1 imm).toNat + n ≤ s.mem.size →
    ∃ t, exec i s = .next t ∧ StoresBytes s t (effectiveAddress s rs1 imm) n (s.readReg rs2) next
  outside : s.mem.size < (effectiveAddress s rs1 imm).toNat + n → exec i s = .fault .outOfBounds

/-- `pc + 4` modulo 2^32 (R25, R93). -/
def sequentialPc (s : State) : Word := BitVec.ofNat 32 (s.pc.toNat + 4)

/-- `pc + imm` modulo 2^32 (R25, R93). -/
def relativePc (s : State) (imm : Word) : Word := BitVec.ofNat 32 (s.pc.toNat + imm.toNat)

/-- The nine opcodes of R62. -/
def groupOpcodes : List (BitVec 7) := [0x37, 0x17, 0x6F, 0x67, 0x63, 0x03, 0x23, 0x13, 0x33]

/-- The seven conditions of R74, in its order. -/
abbrev IllegalEncoding (w : Word) : Prop :=
  opcodeOf w ∉ groupOpcodes
  ∨ (opcodeOf w = 0x67#7 ∧ funct3Of w ≠ 0b000#3)
  ∨ (opcodeOf w = 0x63#7 ∧ funct3Of w ∈ [0b010#3, 0b011#3])
  ∨ (opcodeOf w = 0x03#7 ∧ funct3Of w ∈ [0b011#3, 0b110#3, 0b111#3])
  ∨ (opcodeOf w = 0x23#7 ∧ funct3Of w ∈ [0b011#3, 0b100#3, 0b101#3, 0b110#3, 0b111#3])
  ∨ (opcodeOf w = 0x33#7 ∧ funct7Of w ∉ [0b0000000#7, 0b0100000#7])
  ∨ (opcodeOf w = 0x33#7 ∧ funct7Of w = 0b0100000#7 ∧ funct3Of w ∉ [0b000#3, 0b101#3])

/-- The data access of an instruction: its address and its number of bytes (R48, R120, R130). -/
def dataAccess (i : Instr) (s : State) : Option (Word × Nat) :=
  match i with
  | .lb _ rs1 imm => some (effectiveAddress s rs1 imm, 1)
  | .lh _ rs1 imm => some (effectiveAddress s rs1 imm, 2)
  | .lw _ rs1 imm => some (effectiveAddress s rs1 imm, 4)
  | .lbu _ rs1 imm => some (effectiveAddress s rs1 imm, 1)
  | .lhu _ rs1 imm => some (effectiveAddress s rs1 imm, 2)
  | .sb rs1 _ imm => some (effectiveAddress s rs1 imm, 1)
  | .sh rs1 _ imm => some (effectiveAddress s rs1 imm, 2)
  | .sw rs1 _ imm => some (effectiveAddress s rs1 imm, 4)
  | .lui .. => none
  | .auipc .. => none
  | .jal .. => none
  | .jalr .. => none
  | .beq .. => none
  | .bne .. => none
  | .blt .. => none
  | .bge .. => none
  | .bltu .. => none
  | .bgeu .. => none
  | .addi .. => none
  | .slli .. => none
  | .slti .. => none
  | .sltiu .. => none
  | .xori .. => none
  | .srli .. => none
  | .ori .. => none
  | .andi .. => none
  | .add .. => none
  | .sub .. => none
  | .sll .. => none
  | .slt .. => none
  | .sltu .. => none
  | .xor .. => none
  | .srl .. => none
  | .sra .. => none
  | .or .. => none
  | .and .. => none

/-- An access of `n` bytes at `a` that is not in range (R42). -/
abbrev OutsideBuffer (s : State) (a : Word) (n : Nat) : Prop := s.mem.size < a.toNat + n

/-- The data access of an instruction is not in range (R202). -/
abbrev DataOutside (i : Instr) (s : State) : Prop := ∃ a n, dataAccess i s = some (a, n) ∧ OutsideBuffer s a n

/-- The word at `pc`: four bytes, little-endian, whatever the alignment (R43, R47). -/
def wordAtPc (s : State) : Word :=
  BitVec.ofNat 32 ((s.mem.byteAt s.pc.toNat).toNat + 256 * (s.mem.byteAt (s.pc.toNat + 1)).toNat
    + 65536 * (s.mem.byteAt (s.pc.toNat + 2)).toNat + 16777216 * (s.mem.byteAt (s.pc.toNat + 3)).toNat)

/-- The registers an instruction reads (R20). -/
def sourceRegisters (i : Instr) : List RegIdx :=
  match i with
  | .lui .. => []
  | .auipc .. => []
  | .jal .. => []
  | .jalr _ rs1 _ => [rs1]
  | .beq rs1 rs2 _ => [rs1, rs2]
  | .bne rs1 rs2 _ => [rs1, rs2]
  | .blt rs1 rs2 _ => [rs1, rs2]
  | .bge rs1 rs2 _ => [rs1, rs2]
  | .bltu rs1 rs2 _ => [rs1, rs2]
  | .bgeu rs1 rs2 _ => [rs1, rs2]
  | .lb _ rs1 _ => [rs1]
  | .lh _ rs1 _ => [rs1]
  | .lw _ rs1 _ => [rs1]
  | .lbu _ rs1 _ => [rs1]
  | .lhu _ rs1 _ => [rs1]
  | .sb rs1 rs2 _ => [rs1, rs2]
  | .sh rs1 rs2 _ => [rs1, rs2]
  | .sw rs1 rs2 _ => [rs1, rs2]
  | .addi _ rs1 _ => [rs1]
  | .slli _ rs1 _ => [rs1]
  | .slti _ rs1 _ => [rs1]
  | .sltiu _ rs1 _ => [rs1]
  | .xori _ rs1 _ => [rs1]
  | .srli _ rs1 _ => [rs1]
  | .ori _ rs1 _ => [rs1]
  | .andi _ rs1 _ => [rs1]
  | .add _ rs1 rs2 => [rs1, rs2]
  | .sub _ rs1 rs2 => [rs1, rs2]
  | .sll _ rs1 rs2 => [rs1, rs2]
  | .slt _ rs1 rs2 => [rs1, rs2]
  | .sltu _ rs1 rs2 => [rs1, rs2]
  | .xor _ rs1 rs2 => [rs1, rs2]
  | .srl _ rs1 rs2 => [rs1, rs2]
  | .sra _ rs1 rs2 => [rs1, rs2]
  | .or _ rs1 rs2 => [rs1, rs2]
  | .and _ rs1 rs2 => [rs1, rs2]

/-- A row of spec/opcode_table.json: the words it matches and its mnemonic. -/
structure TableRow where
  mnemonic : String
  mask     : Word
  bits     : Word
deriving DecidableEq, Repr

/-- The rows of the groups with no funct7 (R72, R73). -/
def tableRowsByFunct3 : List TableRow :=
  [⟨"lui", 0x7F, 0x37⟩, ⟨"auipc", 0x7F, 0x17⟩, ⟨"jal", 0x7F, 0x6F⟩, ⟨"jalr", 0x707F, 0x67⟩] ++
  [⟨"beq", 0x707F, 0x63⟩, ⟨"bne", 0x707F, 0x1063⟩, ⟨"blt", 0x707F, 0x4063⟩] ++
  [⟨"bge", 0x707F, 0x5063⟩, ⟨"bltu", 0x707F, 0x6063⟩, ⟨"bgeu", 0x707F, 0x7063⟩] ++
  [⟨"lb", 0x707F, 0x3⟩, ⟨"lh", 0x707F, 0x1003⟩, ⟨"lw", 0x707F, 0x2003⟩, ⟨"lbu", 0x707F, 0x4003⟩, ⟨"lhu", 0x707F, 0x5003⟩] ++
  [⟨"sb", 0x707F, 0x23⟩, ⟨"sh", 0x707F, 0x1023⟩, ⟨"sw", 0x707F, 0x2023⟩] ++
  [⟨"addi", 0x707F, 0x13⟩, ⟨"slli", 0x707F, 0x1013⟩, ⟨"slti", 0x707F, 0x2013⟩, ⟨"sltiu", 0x707F, 0x3013⟩] ++
  [⟨"xori", 0x707F, 0x4013⟩, ⟨"srli", 0x707F, 0x5013⟩, ⟨"ori", 0x707F, 0x6013⟩, ⟨"andi", 0x707F, 0x7013⟩]

/-- The rows of the OP group, selected by funct7 as well (R72, R73). -/
def tableRowsByFunct7 : List TableRow :=
  [⟨"add", 0xFE00707F, 0x33⟩, ⟨"sub", 0xFE00707F, 0x40000033⟩, ⟨"sll", 0xFE00707F, 0x1033⟩] ++
  [⟨"slt", 0xFE00707F, 0x2033⟩, ⟨"sltu", 0xFE00707F, 0x3033⟩, ⟨"xor", 0xFE00707F, 0x4033⟩] ++
  [⟨"srl", 0xFE00707F, 0x5033⟩, ⟨"sra", 0xFE00707F, 0x40005033⟩, ⟨"or", 0xFE00707F, 0x6033⟩, ⟨"and", 0xFE00707F, 0x7033⟩]

/-- The 36 rows of spec/opcode_table.json. -/
def opcodeTable : List TableRow := tableRowsByFunct3 ++ tableRowsByFunct7

end Sys2Proof.Machine
end

