-- ==== Sys2Proof/Certificates/Slice0/Obligations.lean ====
section
/-! DEFINITION. The statements for the provers. Each docstring names the rule of spec/ it formalises. -/

open Sys2Proof Sys2Proof.Machine

/-! ## Decoding and encoding -/

/-- Words of spec/95_test_vectors.md sections 1, 2.1 and 2.8, one or more of every group, and the instructions they stand for. -/
def Obligations.SpecWordsDecodeToTheirInstructions : Prop :=
  decode 0x123452B7 = .ok (.lui 5 0x12345000) ∧ decode 0x00001517 = .ok (.auipc 10 0x00001000)
  ∧ decode 0xFF9FF06F = .ok (.jal 0 0xFFFFFFF8) ∧ decode 0x004100E7 = .ok (.jalr 1 2 4)
  ∧ decode 0xFE029CE3 = .ok (.bne 5 0 0xFFFFFFF8) ∧ decode 0xFFC2A503 = .ok (.lw 10 5 0xFFFFFFFC)
  ∧ decode 0x7E62AFA3 = .ok (.sw 5 6 0x000007FF) ∧ decode 0x4042D513 = .ok (.srli 10 5 0x00000404)
  ∧ decode 0x40628533 = .ok (.sub 10 5 6) ∧ decode 0x00000073 = .error .unknownOpcode

/-- R61, R64: the opcode is `w[6:0]`, and the decoded record of every format, cell by cell; a field a format does not have
is 0. -/
def Obligations.DecodedRecordFollowsFieldTable : Prop :=
  ∀ (f : Format) (w : Word),
    (opcodeOf w).toNat = w.toNat % 128
    ∧ (extract f w).format = f
    ∧ (extract f w).funct7.toNat = (if f = .R then w.toNat / 33554432 else 0)
    ∧ (extract f w).funct3.toNat = (if f = .U ∨ f = .J then 0 else w.toNat / 4096 % 8)
    ∧ (extract f w).rd.val = (if f = .S ∨ f = .B then 0 else w.toNat / 128 % 32)
    ∧ (extract f w).rs1.val = (if f = .U ∨ f = .J then 0 else w.toNat / 32768 % 32)
    ∧ (extract f w).rs2.val = (if f = .R ∨ f = .S ∨ f = .B then w.toNat / 1048576 % 32 else 0)
    ∧ (extract f w).imm = (match f with
        | .R => 0 | .I => immI w | .S => immS w | .B => immB w | .U => immU w | .J => immJ w)

/-- R65 to R69: the five immediates of every word as numbers, with their ranges and the parity of B and J. -/
def Obligations.ImmediatesAreTheSignedFields : Prop :=
  ∀ w : Word,
    let neg := 2147483648 ≤ w.toNat
    let uS := w.toNat / 33554432 * 32 + w.toNat / 128 % 32
    let uB := w.toNat / 2147483648 * 4096 + w.toNat / 128 % 2 * 2048 + w.toNat / 33554432 % 64 * 32 + w.toNat / 256 % 16 * 2
    let uJ := w.toNat / 2147483648 * 1048576 + w.toNat / 4096 % 256 * 4096 + w.toNat / 1048576 % 2 * 2048
      + w.toNat / 2097152 % 1024 * 2
    ((immI w).toInt = (w.toNat / 1048576 : Nat) - (if neg then 4096 else 0) ∧ -2048 ≤ (immI w).toInt ∧ (immI w).toInt ≤ 2047)
    ∧ ((immS w).toInt = (uS : Int) - (if neg then 4096 else 0) ∧ -2048 ≤ (immS w).toInt ∧ (immS w).toInt ≤ 2047)
    ∧ ((immB w).toInt = (uB : Int) - (if neg then 8192 else 0) ∧ -4096 ≤ (immB w).toInt ∧ (immB w).toInt ≤ 4094
        ∧ (immB w).toNat % 2 = 0)
    ∧ (immU w).toNat = w.toNat / 4096 * 4096
    ∧ ((immJ w).toInt = (uJ : Int) - (if neg then 2097152 else 0) ∧ -1048576 ≤ (immJ w).toInt ∧ (immJ w).toInt ≤ 1048574
        ∧ (immJ w).toNat % 2 = 0)

/-- R71: each encoder is the formula of R71, and decoding what it constructs gives every field back (a field the format
lacks is 0), negative immediates with their sign. -/
def Obligations.FieldRoundTripOfEveryFormat : Prop :=
  ∀ (f7 : BitVec 7) (f3 : BitVec 3) (rd rs1 rs2 : RegIdx) (imm : Word) (op : BitVec 7),
    let d : Word := BitVec.ofNat 32 rd.val
    let a : Word := BitVec.ofNat 32 rs1.val
    let b : Word := BitVec.ofNat 32 rs2.val
    let g : Word := f3.setWidth 32
    let o : Word := op.setWidth 32
    (encodeR f7 f3 rd rs1 rs2 op = (f7.setWidth 32 <<< 25 ||| b <<< 20 ||| a <<< 15 ||| g <<< 12 ||| d <<< 7 ||| o)
      ∧ extract .R (encodeR f7 f3 rd rs1 rs2 op) = ⟨.R, f7, f3, rd, rs1, rs2, 0⟩)
    ∧ (encodeI f3 rd rs1 imm op
        = ((imm.extractLsb' 0 12).setWidth 32 <<< 20 ||| a <<< 15 ||| g <<< 12 ||| d <<< 7 ||| o)
      ∧ (immFits12 imm → extract .I (encodeI f3 rd rs1 imm op) = ⟨.I, 0, f3, rd, rs1, 0, imm⟩))
    ∧ (encodeS f3 rs1 rs2 imm op
        = ((imm.extractLsb' 5 7).setWidth 32 <<< 25 ||| b <<< 20 ||| a <<< 15 ||| g <<< 12
            ||| (imm.extractLsb' 0 5).setWidth 32 <<< 7 ||| o)
      ∧ (immFits12 imm → extract .S (encodeS f3 rs1 rs2 imm op) = ⟨.S, 0, f3, 0, rs1, rs2, imm⟩))
    ∧ (encodeB f3 rs1 rs2 imm op
        = ((imm.extractLsb' 12 1).setWidth 32 <<< 31 ||| (imm.extractLsb' 5 6).setWidth 32 <<< 25 ||| b <<< 20 ||| a <<< 15
            ||| g <<< 12 ||| (imm.extractLsb' 1 4).setWidth 32 <<< 8 ||| (imm.extractLsb' 11 1).setWidth 32 <<< 7 ||| o)
      ∧ (immFitsB imm → extract .B (encodeB f3 rs1 rs2 imm op) = ⟨.B, 0, f3, 0, rs1, rs2, imm⟩))
    ∧ (encodeU rd imm op = ((imm.extractLsb' 12 20).setWidth 32 <<< 12 ||| d <<< 7 ||| o)
      ∧ (immFitsU imm → extract .U (encodeU rd imm op) = ⟨.U, 0, 0, rd, 0, 0, imm⟩))
    ∧ (encodeJ rd imm op
        = ((imm.extractLsb' 20 1).setWidth 32 <<< 31 ||| (imm.extractLsb' 1 10).setWidth 32 <<< 21
            ||| (imm.extractLsb' 11 1).setWidth 32 <<< 20 ||| (imm.extractLsb' 12 8).setWidth 32 <<< 12 ||| d <<< 7 ||| o)
      ∧ (immFitsJ imm → extract .J (encodeJ rd imm op) = ⟨.J, 0, 0, rd, 0, 0, imm⟩))

/-- Decoding the encoding of a well-formed instruction gives it back, with every operand (R71, R72). -/
def Obligations.DecodeOfEncodeIsTheInstruction : Prop :=
  ∀ i : Instr, i.wf = true → decode (encode i) = .ok i

/-- Every word that decodes is the encoding of what it decodes to, which is well formed: no bit of such a word is dropped
(R73, R192). -/
def Obligations.EncodeOfDecodeIsTheWord : Prop :=
  ∀ (w : Word) (i : Instr), decode w = .ok i → i.wf = true ∧ encode i = w

/-- R72, R73: a word decodes to an instruction of a row of the opcode table exactly when it matches the row under its mask;
no other bit takes part. -/
def Obligations.OpcodeTableRowsSelectByTheirMasks : Prop :=
  opcodeTable.length = 36
  ∧ ∀ row ∈ opcodeTable, ∀ w : Word,
      (∃ i, decode w = .ok i ∧ mnemonicText i = row.mnemonic) ↔ w &&& row.mask = row.bits

/-- R74, R181: a word is malformed for `execute` exactly on the seven conditions, nothing but the marker changes, and the
disassembler's sentinel is given on the same words, so exactly when `execute` calls the word malformed. -/
def Obligations.MalformedExactlyOnTheSevenConditions : Prop :=
  ∀ (w : Word) (s : State),
    (executeWord w s = .fault .malformedInstruction ↔ IllegalEncoding w)
    ∧ (IllegalEncoding w → FaultLeaves s (command (.execute w) s).1)
    ∧ (disassemble w = "bad instruction" ↔ IllegalEncoding w)

/-! ## Instructions: result, completion and frame -/

/-- R100. -/
def Obligations.LuiLoadsTheUpperImmediate : Prop :=
  (∀ (rd : RegIdx) (imm : Word) (s : State),
    ∃ t, exec (.lui rd imm) s = .next t ∧ WritesRegister s t rd imm (sequentialPc s))
  ∧ ∀ w : Word, opcodeOf w = 0x37#7 → decode w = .ok (.lui (rdOf w) (immU w)) ∧ (immU w).toNat = w.toNat / 4096 * 4096

/-- R101. -/
def Obligations.AuipcAddsTheUpperImmediateToPc : Prop :=
  (∀ (rd : RegIdx) (imm : Word) (s : State),
    ∃ t, exec (.auipc rd imm) s = .next t
      ∧ WritesRegister s t rd (BitVec.ofNat 32 (s.pc.toNat + imm.toNat)) (sequentialPc s))
  ∧ ∀ w : Word, opcodeOf w = 0x17#7 → decode w = .ok (.auipc (rdOf w) (immU w)) ∧ (immU w).toNat = w.toNat / 4096 * 4096

/-- R105. -/
def Obligations.JalLinksAndJumpsRelative : Prop :=
  (∀ (rd : RegIdx) (imm : Word) (s : State),
    ∃ t, exec (.jal rd imm) s = .next t ∧ WritesRegister s t rd (sequentialPc s) (relativePc s imm))
  ∧ ∀ w : Word, opcodeOf w = 0x6F#7 →
      decode w = .ok (.jal (rdOf w) (immJ w)) ∧ -1048576 ≤ (immJ w).toInt ∧ (immJ w).toInt ≤ 1048574 ∧ (immJ w).toNat % 2 = 0

/-- R106: the target is the sum with bit 0 kept, from the value `x[rs1]` had before `rd` was written; funct3 other than 0 is
malformed. -/
def Obligations.JalrLinksAndJumpsUnmasked : Prop :=
  (∀ (rd rs1 : RegIdx) (imm : Word) (s : State),
    ∃ t, exec (.jalr rd rs1 imm) s = .next t
      ∧ WritesRegister s t rd (sequentialPc s) (BitVec.ofNat 32 ((s.readReg rs1).toNat + imm.toNat)))
  ∧ ∀ w : Word, opcodeOf w = 0x67#7 →
      (funct3Of w = 0 → decode w = .ok (.jalr (rdOf w) (rs1Of w) (immI w)))
      ∧ (funct3Of w ≠ 0 → ∀ s, executeWord w s = .fault .malformedInstruction ∧ FaultLeaves s (command (.execute w) s).1)

/-- R111, R112. -/
def Obligations.BeqAndBneBranchOnEquality : Prop :=
  (∀ (rs1 rs2 : RegIdx) (imm : Word) (s : State),
    (∃ t, exec (.beq rs1 rs2 imm) s = .next t
      ∧ WritesNothing s t (if s.readReg rs1 = s.readReg rs2 then relativePc s imm else sequentialPc s))
    ∧ ∃ t, exec (.bne rs1 rs2 imm) s = .next t
      ∧ WritesNothing s t (if s.readReg rs1 ≠ s.readReg rs2 then relativePc s imm else sequentialPc s))
  ∧ ∀ w : Word, opcodeOf w = 0x63#7 →
      (funct3Of w = 0b000 → decode w = .ok (.beq (rs1Of w) (rs2Of w) (immB w)))
      ∧ (funct3Of w = 0b001 → decode w = .ok (.bne (rs1Of w) (rs2Of w) (immB w)))

/-- R113, R114. -/
def Obligations.BltAndBgeBranchOnSignedOrder : Prop :=
  (∀ (rs1 rs2 : RegIdx) (imm : Word) (s : State),
    (∃ t, exec (.blt rs1 rs2 imm) s = .next t
      ∧ WritesNothing s t (if (s.readReg rs1).toInt < (s.readReg rs2).toInt then relativePc s imm else sequentialPc s))
    ∧ ∃ t, exec (.bge rs1 rs2 imm) s = .next t
      ∧ WritesNothing s t (if (s.readReg rs2).toInt ≤ (s.readReg rs1).toInt then relativePc s imm else sequentialPc s))
  ∧ ∀ w : Word, opcodeOf w = 0x63#7 →
      (funct3Of w = 0b100 → decode w = .ok (.blt (rs1Of w) (rs2Of w) (immB w)))
      ∧ (funct3Of w = 0b101 → decode w = .ok (.bge (rs1Of w) (rs2Of w) (immB w)))

/-- R115, R116. -/
def Obligations.BltuAndBgeuBranchOnUnsignedOrder : Prop :=
  (∀ (rs1 rs2 : RegIdx) (imm : Word) (s : State),
    (∃ t, exec (.bltu rs1 rs2 imm) s = .next t
      ∧ WritesNothing s t (if (s.readReg rs1).toNat < (s.readReg rs2).toNat then relativePc s imm else sequentialPc s))
    ∧ ∃ t, exec (.bgeu rs1 rs2 imm) s = .next t
      ∧ WritesNothing s t (if (s.readReg rs2).toNat ≤ (s.readReg rs1).toNat then relativePc s imm else sequentialPc s))
  ∧ ∀ w : Word, opcodeOf w = 0x63#7 →
      (funct3Of w = 0b110 → decode w = .ok (.bltu (rs1Of w) (rs2Of w) (immB w)))
      ∧ (funct3Of w = 0b111 → decode w = .ok (.bgeu (rs1Of w) (rs2Of w) (immB w)))

/-- R121, R124: the byte at the effective address, sign- or zero-extended. -/
def Obligations.ByteLoadsExtendTheByte : Prop :=
  (∀ (rd rs1 : RegIdx) (imm : Word) (s : State),
    let b := s.mem.byteAt (effectiveAddress s rs1 imm).toNat
    LoadResult (.lb rd rs1 imm) s rd rs1 imm 1 (BitVec.ofInt 32 (if b.toNat < 128 then (b.toNat : Int) else (b.toNat : Int) - 256)) (sequentialPc s)
    ∧ LoadResult (.lbu rd rs1 imm) s rd rs1 imm 1 (BitVec.ofNat 32 b.toNat) (sequentialPc s))
  ∧ ∀ w : Word, opcodeOf w = 0x03#7 →
      (funct3Of w = 0b000 → decode w = .ok (.lb (rdOf w) (rs1Of w) (immI w)))
      ∧ (funct3Of w = 0b100 → decode w = .ok (.lbu (rdOf w) (rs1Of w) (immI w)))

/-- R122, R125: the two bytes at the effective address, little-endian, sign- or zero-extended, at any alignment. -/
def Obligations.HalfLoadsExtendTheHalfword : Prop :=
  (∀ (rd rs1 : RegIdx) (imm : Word) (s : State),
    let a := (effectiveAddress s rs1 imm).toNat
    let h := (s.mem.byteAt a).toNat + 256 * (s.mem.byteAt (a + 1)).toNat
    LoadResult (.lh rd rs1 imm) s rd rs1 imm 2 (BitVec.ofInt 32 (if h < 32768 then (h : Int) else (h : Int) - 65536)) (sequentialPc s)
    ∧ LoadResult (.lhu rd rs1 imm) s rd rs1 imm 2 (BitVec.ofNat 32 h) (sequentialPc s))
  ∧ ∀ w : Word, opcodeOf w = 0x03#7 →
      (funct3Of w = 0b001 → decode w = .ok (.lh (rdOf w) (rs1Of w) (immI w)))
      ∧ (funct3Of w = 0b101 → decode w = .ok (.lhu (rdOf w) (rs1Of w) (immI w)))

/-- R123: the four bytes at the effective address, little-endian, at any alignment. -/
def Obligations.LwLoadsTheLittleEndianWord : Prop :=
  (∀ (rd rs1 : RegIdx) (imm : Word) (s : State),
    let a := (effectiveAddress s rs1 imm).toNat
    LoadResult (.lw rd rs1 imm) s rd rs1 imm 4
      (BitVec.ofNat 32 ((s.mem.byteAt a).toNat + 256 * (s.mem.byteAt (a + 1)).toNat + 65536 * (s.mem.byteAt (a + 2)).toNat
        + 16777216 * (s.mem.byteAt (a + 3)).toNat)) (sequentialPc s))
  ∧ ∀ w : Word, opcodeOf w = 0x03#7 → funct3Of w = 0b010 → decode w = .ok (.lw (rdOf w) (rs1Of w) (immI w))

/-- R131, R132, R133: the low 1, 2 or 4 bytes of `x[rs2]`, little-endian, at any alignment; no byte when out of range. -/
def Obligations.StoresWriteTheLowBytesLittleEndian : Prop :=
  (∀ (rs1 rs2 : RegIdx) (imm : Word) (s : State),
    StoreResult (.sb rs1 rs2 imm) s rs1 rs2 imm 1 (sequentialPc s)
    ∧ StoreResult (.sh rs1 rs2 imm) s rs1 rs2 imm 2 (sequentialPc s)
    ∧ StoreResult (.sw rs1 rs2 imm) s rs1 rs2 imm 4 (sequentialPc s))
  ∧ ∀ w : Word, opcodeOf w = 0x23#7 →
      (funct3Of w = 0b000 → decode w = .ok (.sb (rs1Of w) (rs2Of w) (immS w)))
      ∧ (funct3Of w = 0b001 → decode w = .ok (.sh (rs1Of w) (rs2Of w) (immS w)))
      ∧ (funct3Of w = 0b010 → decode w = .ok (.sw (rs1Of w) (rs2Of w) (immS w)))

/-- R141. -/
def Obligations.AddiAddsModuloTwoToThe32 : Prop :=
  (∀ (rd rs1 : RegIdx) (imm : Word) (s : State),
    ∃ t, exec (.addi rd rs1 imm) s = .next t
      ∧ WritesRegister s t rd (BitVec.ofNat 32 ((s.readReg rs1).toNat + imm.toNat)) (sequentialPc s))
  ∧ ∀ w : Word, opcodeOf w = 0x13#7 → funct3Of w = 0b000 → decode w = .ok (.addi (rdOf w) (rs1Of w) (immI w))

/-- R142, R143. -/
def Obligations.SltiAndSltiuCompareWithTheImmediate : Prop :=
  (∀ (rd rs1 : RegIdx) (imm : Word) (s : State),
    (∃ t, exec (.slti rd rs1 imm) s = .next t
      ∧ WritesRegister s t rd (if (s.readReg rs1).toInt < imm.toInt then 1 else 0) (sequentialPc s))
    ∧ ∃ t, exec (.sltiu rd rs1 imm) s = .next t
      ∧ WritesRegister s t rd (if (s.readReg rs1).toNat < imm.toNat then 1 else 0) (sequentialPc s))
  ∧ ∀ w : Word, opcodeOf w = 0x13#7 →
      (funct3Of w = 0b010 → decode w = .ok (.slti (rdOf w) (rs1Of w) (immI w)))
      ∧ (funct3Of w = 0b011 → decode w = .ok (.sltiu (rdOf w) (rs1Of w) (immI w)))

/-- R144, R145, R146. -/
def Obligations.XoriOriAndiCombineBits : Prop :=
  (∀ (rd rs1 : RegIdx) (imm : Word) (s : State),
    (∃ t, exec (.xori rd rs1 imm) s = .next t
      ∧ WritesRegister s t rd (BitVec.ofNat 32 ((s.readReg rs1).toNat ^^^ imm.toNat)) (sequentialPc s))
    ∧ (∃ t, exec (.ori rd rs1 imm) s = .next t
      ∧ WritesRegister s t rd (BitVec.ofNat 32 ((s.readReg rs1).toNat ||| imm.toNat)) (sequentialPc s))
    ∧ ∃ t, exec (.andi rd rs1 imm) s = .next t
      ∧ WritesRegister s t rd (BitVec.ofNat 32 ((s.readReg rs1).toNat &&& imm.toNat)) (sequentialPc s))
  ∧ ∀ w : Word, opcodeOf w = 0x13#7 →
      (funct3Of w = 0b100 → decode w = .ok (.xori (rdOf w) (rs1Of w) (immI w)))
      ∧ (funct3Of w = 0b110 → decode w = .ok (.ori (rdOf w) (rs1Of w) (immI w)))
      ∧ (funct3Of w = 0b111 → decode w = .ok (.andi (rdOf w) (rs1Of w) (immI w)))

/-- R147, R148: the amount is the low five bits of the immediate, whatever its other bits are; no word of these is malformed. -/
def Obligations.SlliAndSrliShiftByTheLowFiveBits : Prop :=
  (∀ (rd rs1 : RegIdx) (imm : Word) (s : State),
    (∃ t, exec (.slli rd rs1 imm) s = .next t
      ∧ WritesRegister s t rd (BitVec.ofNat 32 ((s.readReg rs1).toNat * 2 ^ (imm.toNat % 32))) (sequentialPc s))
    ∧ ∃ t, exec (.srli rd rs1 imm) s = .next t
      ∧ WritesRegister s t rd (BitVec.ofNat 32 ((s.readReg rs1).toNat / 2 ^ (imm.toNat % 32))) (sequentialPc s))
  ∧ ∀ w : Word, opcodeOf w = 0x13#7 →
      (funct3Of w = 0b001 → decode w = .ok (.slli (rdOf w) (rs1Of w) (immI w)))
      ∧ (funct3Of w = 0b101 → decode w = .ok (.srli (rdOf w) (rs1Of w) (immI w)))

/-- R149: a word with the published encoding of SRAI decodes to `srli` with immediate 0x400 + shamt, shifts zeros in by
shamt, and is printed as `srli` with the whole immediate. -/
def Obligations.SraiEncodingShiftsLogically : Prop :=
  ∀ w : Word, opcodeOf w = 0x13#7 → funct3Of w = 0b101 → funct7Of w = 0b0100000 →
    decode w = .ok (.srli (rdOf w) (rs1Of w) (BitVec.ofNat 32 (0x400 + (rs2Of w).val)))
    ∧ (∀ s, ∃ t, executeWord w s = .next t
        ∧ WritesRegister s t (rdOf w) (BitVec.ofNat 32 ((s.readReg (rs1Of w)).toNat / 2 ^ (rs2Of w).val)) (sequentialPc s))
    ∧ disassemble w
        = "srli " ++ abiName (rdOf w) ++ ", " ++ abiName (rs1Of w) ++ ", " ++ Nat.repr (1024 + (rs2Of w).val)

/-- R156, R157. -/
def Obligations.AddAndSubAreModuloTwoToThe32 : Prop :=
  (∀ (rd rs1 rs2 : RegIdx) (s : State),
    (∃ t, exec (.add rd rs1 rs2) s = .next t
      ∧ WritesRegister s t rd (BitVec.ofNat 32 ((s.readReg rs1).toNat + (s.readReg rs2).toNat)) (sequentialPc s))
    ∧ ∃ t, exec (.sub rd rs1 rs2) s = .next t
      ∧ WritesRegister s t rd (BitVec.ofInt 32 (((s.readReg rs1).toNat : Int) - ((s.readReg rs2).toNat : Int))) (sequentialPc s))
  ∧ ∀ w : Word, opcodeOf w = 0x33#7 → funct3Of w = 0b000 →
      (funct7Of w = 0b0000000 → decode w = .ok (.add (rdOf w) (rs1Of w) (rs2Of w)))
      ∧ (funct7Of w = 0b0100000 → decode w = .ok (.sub (rdOf w) (rs1Of w) (rs2Of w)))

/-- R158, R162: the amount is the low five bits of `x[rs2]`. -/
def Obligations.SllAndSrlShiftByTheLowFiveBits : Prop :=
  (∀ (rd rs1 rs2 : RegIdx) (s : State),
    (∃ t, exec (.sll rd rs1 rs2) s = .next t
      ∧ WritesRegister s t rd (BitVec.ofNat 32 ((s.readReg rs1).toNat * 2 ^ ((s.readReg rs2).toNat % 32))) (sequentialPc s))
    ∧ ∃ t, exec (.srl rd rs1 rs2) s = .next t
      ∧ WritesRegister s t rd (BitVec.ofNat 32 ((s.readReg rs1).toNat / 2 ^ ((s.readReg rs2).toNat % 32))) (sequentialPc s))
  ∧ ∀ w : Word, opcodeOf w = 0x33#7 → funct7Of w = 0b0000000 →
      (funct3Of w = 0b001 → decode w = .ok (.sll (rdOf w) (rs1Of w) (rs2Of w)))
      ∧ (funct3Of w = 0b101 → decode w = .ok (.srl (rdOf w) (rs1Of w) (rs2Of w)))

/-- R163: the result is floor(s(a) / 2^k), `k` the low five bits of `x[rs2]`. -/
def Obligations.SraDividesTheSignedValueDown : Prop :=
  (∀ (rd rs1 rs2 : RegIdx) (s : State),
    ∃ t, exec (.sra rd rs1 rs2) s = .next t
      ∧ WritesRegister s t rd (BitVec.ofInt 32 ((s.readReg rs1).toInt / 2 ^ ((s.readReg rs2).toNat % 32))) (sequentialPc s))
  ∧ ∀ w : Word, opcodeOf w = 0x33#7 → funct7Of w = 0b0100000 → funct3Of w = 0b101 →
      decode w = .ok (.sra (rdOf w) (rs1Of w) (rs2Of w))

/-- R159, R160. -/
def Obligations.SltAndSltuCompareRegisters : Prop :=
  (∀ (rd rs1 rs2 : RegIdx) (s : State),
    (∃ t, exec (.slt rd rs1 rs2) s = .next t
      ∧ WritesRegister s t rd (if (s.readReg rs1).toInt < (s.readReg rs2).toInt then 1 else 0) (sequentialPc s))
    ∧ ∃ t, exec (.sltu rd rs1 rs2) s = .next t
      ∧ WritesRegister s t rd (if (s.readReg rs1).toNat < (s.readReg rs2).toNat then 1 else 0) (sequentialPc s))
  ∧ ∀ w : Word, opcodeOf w = 0x33#7 → funct7Of w = 0b0000000 →
      (funct3Of w = 0b010 → decode w = .ok (.slt (rdOf w) (rs1Of w) (rs2Of w)))
      ∧ (funct3Of w = 0b011 → decode w = .ok (.sltu (rdOf w) (rs1Of w) (rs2Of w)))

/-- R161, R164, R165. -/
def Obligations.XorOrAndCombineBits : Prop :=
  (∀ (rd rs1 rs2 : RegIdx) (s : State),
    (∃ t, exec (.xor rd rs1 rs2) s = .next t
      ∧ WritesRegister s t rd (BitVec.ofNat 32 ((s.readReg rs1).toNat ^^^ (s.readReg rs2).toNat)) (sequentialPc s))
    ∧ (∃ t, exec (.or rd rs1 rs2) s = .next t
      ∧ WritesRegister s t rd (BitVec.ofNat 32 ((s.readReg rs1).toNat ||| (s.readReg rs2).toNat)) (sequentialPc s))
    ∧ ∃ t, exec (.and rd rs1 rs2) s = .next t
      ∧ WritesRegister s t rd (BitVec.ofNat 32 ((s.readReg rs1).toNat &&& (s.readReg rs2).toNat)) (sequentialPc s))
  ∧ ∀ w : Word, opcodeOf w = 0x33#7 → funct7Of w = 0b0000000 →
      (funct3Of w = 0b100 → decode w = .ok (.xor (rdOf w) (rs1Of w) (rs2Of w)))
      ∧ (funct3Of w = 0b110 → decode w = .ok (.or (rdOf w) (rs1Of w) (rs2Of w)))
      ∧ (funct3Of w = 0b111 → decode w = .ok (.and (rdOf w) (rs1Of w) (rs2Of w)))

/-- R170: a word whose opcode is none of the nine faults, changes nothing but the marker, and disassembles to the sentinel.
R171, R172: FENCE and FENCE.I (opcode 0x0F), ECALL, EBREAK, CSR, mret and wfi (opcode 0x73) are such words, so FENCE is no
no-op and ECALL no call. -/
def Obligations.OpcodesOutsideTheNineGroupsFault : Prop :=
  (∀ (w : Word) (s : State), opcodeOf w ∉ groupOpcodes →
    executeWord w s = .fault .malformedInstruction ∧ FaultLeaves s (command (.execute w) s).1
    ∧ (command (.execute w) s).2 = .fault .malformedInstruction ∧ disassemble w = "bad instruction")
  ∧ ∀ (w : Word) (s : State), (opcodeOf w = 0x0F#7 ∨ opcodeOf w = 0x73#7) →
      executeWord w s = .fault .malformedInstruction ∧ FaultLeaves s (command (.execute w) s).1

/-! ## Step, execute and faults -/

/-- R90, R91, R92: when the four bytes at `pc` lie in the buffer and decode to `i`, the step is `i`'s meaning, run on the state
whose marker the step's first action has cleared; and so is `execute` of any word that decodes to `i`, wherever `pc` is. -/
def Obligations.StepRunsTheDecodedInstruction : Prop :=
  (∀ (s : State) (i : Instr), s.pc.toNat + 4 ≤ s.mem.size → decode (wordAtPc s) = .ok i →
    step s = exec i { s with dirty := none })
  ∧ ∀ (w : Word) (i : Instr) (s : State), decode w = .ok i → executeWord w s = exec i { s with dirty := none }

/-- R91: `step()` is `execute` of the word at `pc` whenever the fetch is in range. -/
def Obligations.StepEqualsExecuteOfTheFetchedWord : Prop :=
  ∀ s : State, s.pc.toNat + 4 ≤ s.mem.size →
    step s = executeWord (wordAtPc s) s ∧ command .step s = command (.execute (wordAtPc s)) s

/-- R47: the fetch is `MemRead(pc, 4)` at any alignment; out of range it faults and changes nothing but the marker. `execute`
fetches nothing: it is out of bounds for a data access only. -/
def Obligations.FetchReadsFourBytesOrFaults : Prop :=
  ∀ s : State,
    (s.pc.toNat + 4 ≤ s.mem.size → s.fetch = some (wordAtPc s))
    ∧ (s.mem.size < s.pc.toNat + 4 → step s = .fault .outOfBounds
        ∧ (command .step s).2 = .fault .outOfBounds ∧ FaultLeaves s (command .step s).1)
    ∧ ∀ w, executeWord w s = .fault .outOfBounds → ∃ i, decode w = .ok i ∧ DataOutside i s

/-- R202, R204: the causes of the two faults, complete and in their order: the fetch, then the word, then the data access. -/
def Obligations.FaultCausesAreComplete : Prop :=
  (∀ (w : Word) (s : State),
    (executeWord w s = .fault .malformedInstruction ↔ IllegalEncoding w)
    ∧ (executeWord w s = .fault .outOfBounds ↔ ∃ i, decode w = .ok i ∧ DataOutside i s))
  ∧ ∀ s : State,
    (step s = .fault .malformedInstruction ↔ s.pc.toNat + 4 ≤ s.mem.size ∧ IllegalEncoding (wordAtPc s))
    ∧ (step s = .fault .outOfBounds ↔ s.mem.size < s.pc.toNat + 4
        ∨ (s.pc.toNat + 4 ≤ s.mem.size ∧ ∃ i, decode (wordAtPc s) = .ok i ∧ DataOutside i s))

/-- A step completes exactly when no cause of R202 holds: nothing else stops it. -/
def Obligations.StepCompletesUnlessAFaultCauseHolds : Prop :=
  ∀ s : State, (∃ t, step s = .next t) ↔
    s.pc.toNat + 4 ≤ s.mem.size ∧ ∃ i, decode (wordAtPc s) = .ok i ∧ ¬ DataOutside i s

/-- R12: `step` and `execute` answer exactly one of Done and the two faults, `reset` and `disassemble` never fault; no command
is refused. -/
def Obligations.CommandsAnswerDoneOrOneOfTwoFaults : Prop :=
  ∀ s : State,
    ((command .step s).2 = .done ∨ (command .step s).2 = .fault .malformedInstruction ∨ (command .step s).2 = .fault .outOfBounds)
    ∧ (∀ w, (command (.execute w) s).2 = .done ∨ (command (.execute w) s).2 = .fault .malformedInstruction
        ∨ (command (.execute w) s).2 = .fault .outOfBounds)
    ∧ (∀ f, (command .reset s).2 ≠ .fault f)
    ∧ (∀ w, ∃ t, (command (.disassemble w) s).2 = .text t)
    ∧ (∀ (c : Command) r, (command c s).2 ≠ .refused r)
    ∧ ∀ r, step s ≠ .refused r

/-- R203: a command that faults leaves every register, `pc` and every byte as before, and no marker. -/
def Obligations.FaultedCommandLeavesTheStateUnchanged : Prop :=
  ∀ (c : Command) (s : State) (f : Fault), (command c s).2 = .fault f → FaultLeaves s (command c s).1

/-- The CORE keeps no fault latch: a `step` repeated after a fault with nothing changed faults again in the same way and
leaves the same state (R206). -/
def Obligations.RepeatedStepFaultsAgainInTheSameWay : Prop :=
  ∀ (s : State) (f : Fault), (command .step s).2 = .fault f →
    command .step (command .step s).1 = ((command .step s).1, .fault f)

/-! ## Whole-machine rules -/

/-- R27: after a completed instruction, alone or as a `step` or `execute` command, the marker is its destination, none for
BRANCH and STORE; it is none after every fault; and no instruction reads it. Beside R27: `reset` leaves none (R220), and
`disassemble` changes no state, the marker included (R180). -/
def Obligations.DirtyMarkerIsTheDestinationAndNeverRead : Prop :=
  (∀ (i : Instr) (s t : State), exec i s = .next t → t.dirty = i.dest)
  ∧ (∀ (w : Word) (i : Instr) (s : State), decode w = .ok i → (command (.execute w) s).2 = .done →
      (command (.execute w) s).1.dirty = i.dest)
  ∧ (∀ (i : Instr) (s : State), decode (wordAtPc s) = .ok i → (command .step s).2 = .done →
      (command .step s).1.dirty = i.dest)
  ∧ (∀ (c : Command) (s : State) (f : Fault), (command c s).2 = .fault f → (command c s).1.dirty = none)
  ∧ (∀ s : State, (command .reset s).1.dirty = none)
  ∧ (∀ (w : Word) (s : State), (command (.disassemble w) s).1 = s)
  ∧ (∀ (s : State) (d : Option RegIdx), step { s with dirty := d } = step s)
  ∧ ∀ (s : State) (d : Option RegIdx) (w : Word), executeWord w { s with dirty := d } = executeWord w s

/-- R21: register 0 reads 0 in every state, for an instruction and on the observation port; a write to it, by an instruction or
by the host, stores nothing at all, not even in the entry nobody reads. -/
def Obligations.RegisterZeroIsHardwiredToZero : Prop :=
  (∀ s : State, s.readReg 0 = 0 ∧ (observe s).x[0]? = some 0)
  ∧ (∀ (i : Instr) (s t : State), exec i s = .next t → i.dest = some 0 → t.regs = s.regs)
  ∧ ∀ (s : State) (v : Word), hostMove (.writeReg 0 v) s = s

/-- Only the destination register can change, and its old value is kept when it is register 0 (R20, R21, R95): so the marker
names the one register that may differ. -/
def Obligations.OnlyTheMarkedRegisterMayChange : Prop :=
  ∀ s t : State, step s = .next t → ∀ r, t.readReg r ≠ s.readReg r → t.dirty = some r ∧ r ≠ 0

/-- R93: how every completed instruction leaves `pc`, by group, a branch taken or not; the right-hand sides are of the state
before. -/
def Obligations.ProgramCounterFollowsTheGroup : Prop :=
  ∀ (i : Instr) (s t : State), exec i s = .next t →
    (i.group ∈ [.lui, .auipc, .load, .store, .opImm, .op] → t.pc.toNat = (s.pc.toNat + 4) % 4294967296)
    ∧ (∀ rd imm, i = .jal rd imm → t.pc.toNat = (s.pc.toNat + imm.toNat) % 4294967296)
    ∧ (∀ rd rs1 imm, i = .jalr rd rs1 imm → t.pc.toNat = ((s.readReg rs1).toNat + imm.toNat) % 4294967296)
    ∧ (∀ rs1 rs2 imm, i = .beq rs1 rs2 imm →
        t.pc = if s.readReg rs1 = s.readReg rs2 then relativePc s imm else sequentialPc s)
    ∧ (∀ rs1 rs2 imm, i = .bne rs1 rs2 imm →
        t.pc = if s.readReg rs1 ≠ s.readReg rs2 then relativePc s imm else sequentialPc s)
    ∧ (∀ rs1 rs2 imm, i = .blt rs1 rs2 imm →
        t.pc = if (s.readReg rs1).toInt < (s.readReg rs2).toInt then relativePc s imm else sequentialPc s)
    ∧ (∀ rs1 rs2 imm, i = .bge rs1 rs2 imm →
        t.pc = if (s.readReg rs2).toInt ≤ (s.readReg rs1).toInt then relativePc s imm else sequentialPc s)
    ∧ (∀ rs1 rs2 imm, i = .bltu rs1 rs2 imm →
        t.pc = if (s.readReg rs1).toNat < (s.readReg rs2).toNat then relativePc s imm else sequentialPc s)
    ∧ ∀ rs1 rs2 imm, i = .bgeu rs1 rs2 imm →
        t.pc = if (s.readReg rs2).toNat ≤ (s.readReg rs1).toNat then relativePc s imm else sequentialPc s

/-- Only a STORE changes a byte, only inside its access, and nothing changes MEM_SIZE (R40, R45, R48). -/
def Obligations.OnlyStoresChangeBytesInsideTheirAccess : Prop :=
  ∀ (i : Instr) (s t : State), exec i s = .next t →
    t.mem.size = s.mem.size
    ∧ ∀ x, t.mem.byteAt x ≠ s.mem.byteAt x →
        i.group = .store ∧ ∃ a n, dataAccess i s = some (a, n) ∧ a.toNat ≤ x ∧ x < a.toNat + n ∧ x < s.mem.size

/-- An instruction sees only its source registers, `pc` and the buffer (R20, R94): states that agree on these get the same
`pc`, buffer, marker and destination value, or the same fault. -/
def Obligations.InstructionsReadOnlyTheirSources : Prop :=
  ∀ (i : Instr) (s s' : State), s.pc = s'.pc → s.mem = s'.mem →
    (∀ r ∈ sourceRegisters i, s.readReg r = s'.readReg r) →
    (∃ t t', exec i s = .next t ∧ exec i s' = .next t' ∧ t.pc = t'.pc ∧ t.mem = t'.mem ∧ t.dirty = t'.dirty
      ∧ ∀ rd, i.dest = some rd → t.readReg rd = t'.readReg rd)
    ∨ ∃ f, exec i s = .fault f ∧ exec i s' = .fault f

/-- Every step keeps the invariant: the buffer's canonical form and size bound, nothing stored at entry 0 of the register file
(R9, R21; the canonical form is the model's representation, log 2). -/
def Obligations.StepKeepsTheInvariant : Prop :=
  ∀ s t : State, s.Inv → step s = .next t → t.Inv

/-- The state after reset meets the invariant. -/
def Obligations.ResetMeetsTheInvariant : Prop := State.reset.Inv

/-- Every session of commands (completed or faulted) and host moves keeps the invariant, and no command of it is refused
(R10, R12, R206). It rests on choices of the model: the canonical form (log 2), that a host write of a byte outside the buffer
changes nothing (log 6), that the host moves between commands only (log 7), that a command after a fault is performed like any
other (log 14). -/
def Obligations.SessionsKeepTheInvariant : Prop :=
  ∀ (acts : List HostAction) (s : State), s.Inv →
    (session acts s).1.Inv ∧ ∀ r, .refused r ∉ (session acts s).2

/-! ## Memory -/

/-- R42, R44, R45: when an access is in range, the value `MemRead` assembles, the bytes `MemWrite` leaves, and the value read
back. -/
def Obligations.MemoryAccessesAreCheckedAndLittleEndian : Prop :=
  ∀ (m : Memory) (a : Word) (n : Width) (v : Word),
    (m.read a n = none ↔ m.size < a.toNat + widthBytes n)
    ∧ (m.write a n v = none ↔ m.size < a.toNat + widthBytes n)
    ∧ (∀ x, m.read a n = some x → x.toNat < 256 ^ widthBytes n
        ∧ ∀ k, k < widthBytes n → x.toNat / 256 ^ k % 256 = (m.byteAt (a.toNat + k)).toNat)
    ∧ ∀ m', m.write a n v = some m' →
        (∀ k, k < widthBytes n → (m'.byteAt (a.toNat + k)).toNat = v.toNat / 256 ^ k % 256)
        ∧ (∀ x, (x < a.toNat ∨ a.toNat + widthBytes n ≤ x) → m'.byteAt x = m.byteAt x)
        ∧ m'.size = m.size
        ∧ ∃ x, m'.read a n = some x ∧ x.toNat = v.toNat % 256 ^ widthBytes n

/-- R43: after a word store, byte and halfword reads at the four addresses see the word's bytes, least significant first. The
invariant is needed for its size bound (R9): no address of the word wraps. -/
def Obligations.NarrowReadsSeeTheBytesOfAStoredWord : Prop :=
  ∀ (rs1 rs2 : RegIdx) (imm : Word) (s t : State), s.Inv → exec (.sw rs1 rs2 imm) s = .next t →
    (∀ k, k < 4 → ∃ b, t.load (BitVec.ofNat 32 ((effectiveAddress s rs1 imm).toNat + k)) .byte = some b
      ∧ b.toNat = (s.readReg rs2).toNat / 256 ^ k % 256)
    ∧ ∀ k, k < 3 → ∃ h, t.load (BitVec.ofNat 32 ((effectiveAddress s rs1 imm).toNat + k)) .half = some h
      ∧ h.toNat = (s.readReg rs2).toNat / 256 ^ k % 65536

/-- R55: a completed SB, SH or SW is seen by the fetch right after it, at whatever address that fetch is: a byte of the fetched
word that the store covered is the stored byte of `x[rs2]`, every other byte is the buffer's from before, and the fetch is in
range exactly when it was. The same for a byte the host writes between commands (R52). -/
def Obligations.StoresAreSeenByTheNextFetch : Prop :=
  (∀ (rs1 rs2 : RegIdx) (imm : Word) (i : Instr) (n : Nat) (s t : State) (p : Word),
    (i, n) ∈ [(Instr.sb rs1 rs2 imm, 1), (Instr.sh rs1 rs2 imm, 2), (Instr.sw rs1 rs2 imm, 4)] → exec i s = .next t →
    let a := (effectiveAddress s rs1 imm).toNat
    (t.setPc p).fetch.isSome = (s.setPc p).fetch.isSome
    ∧ ∀ w, (t.setPc p).fetch = some w → ∀ k, k < 4 →
        w.toNat / 256 ^ k % 256
          = if a ≤ p.toNat + k ∧ p.toNat + k < a + n then (s.readReg rs2).toNat / 256 ^ (p.toNat + k - a) % 256
            else (s.mem.byteAt (p.toNat + k)).toNat)
  ∧ ∀ (s : State) (a : Nat) (b : Byte) (p w : Word), a < s.mem.size →
      ((hostMove (.writeByte a b) s).setPc p).fetch = some w → ∀ k, k < 4 →
        w.toNat / 256 ^ k % 256 = if p.toNat + k = a then b.toNat else (s.mem.byteAt (p.toNat + k)).toNat

/-- The end-of-run marker `jal zero, 0` jumps to itself and changes nothing but the marker, at every step (R99, R105). -/
def Obligations.SelfLoopChangesOnlyTheMarker : Prop :=
  ∀ s : State, s.fetch = some 0x0000006F →
    step s = .next { s with dirty := some 0 } ∧ step { s with dirty := some 0 } = .next { s with dirty := some 0 }

/-! ## Reset, boot and the ports -/

/-- R220: `reset()` zeroes the registers and clears the marker; `pc` and the buffer are untouched; it never faults, and repeating
it changes nothing more. -/
def Obligations.ResetCommandZeroesRegistersOnly : Prop :=
  ∀ s : State,
    (∀ r, (command .reset s).1.readReg r = 0)
    ∧ (command .reset s).1.dirty = none
    ∧ (command .reset s).1.pc = s.pc
    ∧ (command .reset s).1.mem = s.mem
    ∧ (∀ f, (command .reset s).2 ≠ .fault f)
    ∧ command .reset (command .reset s).1 = command .reset s

/-- The state after reset has every register 0 and no marker (R32), and is a state `reset()` leaves. Its `pc`, MEM_SIZE and
bytes are the model's choice (logs 1, 2, 3) and are not stated. That `reset()` answers Done, from every state, is the model's
choice too (log 19): the spec says only that it never faults. -/
def Obligations.ResetStateHasZeroRegistersAndNoMarker : Prop :=
  (∀ r, State.reset.readReg r = 0) ∧ State.reset.dirty = none ∧ (command .reset State.reset).1 = State.reset
  ∧ ∀ s : State, (command .reset s).2 = .done

/-- R224: whatever the state before, the boot sequence of R223 leaves the launch premise: `pc` is ENTRY_PC, `x[0]` is 0, every
other register is 0 or the last value the host wrote to it, no marker, the host's image. -/
def Obligations.BootLeavesTheLaunchPremise : Prop :=
  ∀ (s : State) (image : Memory) (entryPc : Word) (entryRegs : List (RegIdx × Word)),
    s.boot image entryPc entryRegs = State.launch image entryPc entryRegs
    ∧ (s.boot image entryPc entryRegs).pc = entryPc
    ∧ (s.boot image entryPc entryRegs).readReg 0 = 0
    ∧ (∀ r, r ≠ 0 → (s.boot image entryPc entryRegs).readReg r
        = ((entryRegs.reverse.find? (fun p => decide (p.1 = r))).map Prod.snd).getD 0)
    ∧ (s.boot image entryPc entryRegs).dirty = none
    ∧ (s.boot image entryPc entryRegs).mem = image

/-- R14, R16, R52: the host's moves: `pc`, `x[1..31]` and a byte of the buffer take any value, a write to `x[0]` has no effect,
nothing else changes, the marker least of all. That a byte write at an address outside the buffer changes nothing is the model's
choice (log 6). -/
def Obligations.HostMovesWriteOneThing : Prop :=
  (∀ (s : State) (v : Word),
    hostMove (.writePc v) s = { s with pc := v }
    ∧ hostMove (.writeReg 0 v) s = s
    ∧ ∀ r, r ≠ 0 →
        (hostMove (.writeReg r v) s).readReg r = v
        ∧ (∀ q, q ≠ r → (hostMove (.writeReg r v) s).readReg q = s.readReg q)
        ∧ (hostMove (.writeReg r v) s).pc = s.pc
        ∧ (hostMove (.writeReg r v) s).dirty = s.dirty
        ∧ (hostMove (.writeReg r v) s).mem = s.mem)
  ∧ (∀ (s : State) (a : Nat) (b : Byte), a < s.mem.size →
      (hostMove (.writeByte a b) s).mem.byteAt a = b
      ∧ (∀ x, x ≠ a → (hostMove (.writeByte a b) s).mem.byteAt x = s.mem.byteAt x)
      ∧ (hostMove (.writeByte a b) s).mem.size = s.mem.size
      ∧ (∀ r, (hostMove (.writeByte a b) s).readReg r = s.readReg r)
      ∧ (hostMove (.writeByte a b) s).pc = s.pc
      ∧ (hostMove (.writeByte a b) s).dirty = s.dirty)
  ∧ ∀ (s : State) (a : Nat) (b : Byte), s.mem.size ≤ a → hostMove (.writeByte a b) s = s

/-- R28: a completed register-writing instruction with rd = 0 sets the marker to 0 and stores nothing; on the observation port
bit 5 says whether there is a marker and bits 4:0 its index, 0 for none. -/
def Obligations.MarkerIsSetForRegisterZeroAndEncodedInSixBits : Prop :=
  (∀ (i : Instr) (s t : State), exec i s = .next t → i.dest = some 0 →
    t.dirty = some 0 ∧ ∀ r, t.readReg r = s.readReg r)
  ∧ (dirtyPort none).toNat = 0
  ∧ ∀ r : RegIdx, (dirtyPort (some r)).toNat = 32 + r.val

/-- R13: the observation port shows the 32 registers in order, `pc` and the marker; register 0 shows 0 in every state. -/
def Obligations.ObservationShowsRegistersPcAndMarker : Prop :=
  ∀ s : State, (observe s).x.length = 32 ∧ (∀ r : RegIdx, (observe s).x[r.val]? = some (s.readReg r))
    ∧ (observe s).x[0]? = some 0 ∧ (observe s).pc = s.pc ∧ (observe s).dirty = dirtyPort s.dirty

/-- The host's load of one word where the next step fetches runs exactly that word, from every state (the model's own operation,
logs 11 and 12). -/
def Obligations.PlacedWordIsTheNextFetched : Prop :=
  ∀ (s : State) (w : Word), (s.withFetchWord 32 w.toNat).fetch = some w
    ∧ (∀ r, (s.withFetchWord 32 w.toNat).readReg r = s.readReg r)
    ∧ (s.pc.toNat + 4 ≤ s.mem.size → (s.withFetchWord 32 w.toNat).pc = s.pc)

/-! ## Disassembler -/

/-- R183 to R191: the text of every word, by opcode and selecting fields: the register names of R22, the two number forms of
R184, the layout of each group with its operand order, the sentinel on the words R74 calls illegal; and ten words of
spec/95_test_vectors.md section 2.10 with the text written there. The layouts of R183 to R190 are the spec's own decision
(spec/92_eei_decisions.md D20), which the model follows (log 5). -/
def Obligations.DisassembledTextFollowsTheLayouts : Prop :=
  (List.finRange 32).map abiName
    = ["zero", "ra", "sp", "gp", "tp", "t0", "t1", "t2", "s0", "s1", "a0", "a1", "a2", "a3", "a4", "a5"]
      ++ ["a6", "a7", "s2", "s3", "s4", "s5", "s6", "s7", "s8", "s9", "s10", "s11", "t3", "t4", "t5", "t6"]
  ∧ (∀ imm : Word, signedDecimal imm = (if imm.toInt < 0 then "-" else "") ++ Nat.repr imm.toInt.natAbs)
  ∧ (∀ imm : Word, upperHex imm = "0x" ++ String.ofList (Nat.toDigits 16 (imm.toNat / 4096)))
  ∧ (∀ (w : Word) (m : String),
      (IllegalEncoding w → disassemble w = "bad instruction")
      ∧ ((opcodeOf w, m) ∈ [(0x37, "lui"), (0x17, "auipc")] →
          disassemble w = m ++ " " ++ abiName (rdOf w) ++ ", " ++ upperHex (immU w))
      ∧ (opcodeOf w = 0x6F → disassemble w = "jal " ++ abiName (rdOf w) ++ ", " ++ signedDecimal (immJ w))
      ∧ (opcodeOf w = 0x67 → funct3Of w = 0 →
          disassemble w = "jalr " ++ abiName (rdOf w) ++ ", " ++ signedDecimal (immI w) ++ "(" ++ abiName (rs1Of w) ++ ")")
      ∧ (opcodeOf w = 0x63 →
          (funct3Of w, m) ∈ [(0, "beq"), (1, "bne"), (4, "blt"), (5, "bge"), (6, "bltu"), (7, "bgeu")] →
          disassemble w
            = m ++ " " ++ abiName (rs1Of w) ++ ", " ++ abiName (rs2Of w) ++ ", " ++ signedDecimal (immB w))
      ∧ (opcodeOf w = 0x03 → (funct3Of w, m) ∈ [(0, "lb"), (1, "lh"), (2, "lw"), (4, "lbu"), (5, "lhu")] →
          disassemble w
            = m ++ " " ++ abiName (rdOf w) ++ ", " ++ signedDecimal (immI w) ++ "(" ++ abiName (rs1Of w) ++ ")")
      ∧ (opcodeOf w = 0x23 → (funct3Of w, m) ∈ [(0, "sb"), (1, "sh"), (2, "sw")] →
          disassemble w
            = m ++ " " ++ abiName (rs2Of w) ++ ", " ++ signedDecimal (immS w) ++ "(" ++ abiName (rs1Of w) ++ ")")
      ∧ (opcodeOf w = 0x13 →
          (funct3Of w, m) ∈ [(0, "addi"), (1, "slli"), (2, "slti"), (3, "sltiu"), (4, "xori"), (5, "srli"), (6, "ori"),
            (7, "andi")] →
          disassemble w
            = m ++ " " ++ abiName (rdOf w) ++ ", " ++ abiName (rs1Of w) ++ ", " ++ signedDecimal (immI w))
      ∧ (opcodeOf w = 0x33 →
          (funct7Of w, funct3Of w, m) ∈ [(0, 0, "add"), (0, 1, "sll"), (0, 2, "slt"), (0, 3, "sltu"), (0, 4, "xor"),
            (0, 5, "srl"), (0, 6, "or"), (0, 7, "and"), (0b0100000, 0, "sub"), (0b0100000, 5, "sra")] →
          disassemble w
            = m ++ " " ++ abiName (rdOf w) ++ ", " ++ abiName (rs1Of w) ++ ", " ++ abiName (rs2Of w)))
  ∧ disassemble 0xABCDEFB7 = "lui t6, 0xabcde" ∧ disassemble 0x00010197 = "auipc gp, 0x10"
  ∧ disassemble 0xFFFFF46F = "jal s0, -2" ∧ disassemble 0x800D8967 = "jalr s2, -2048(s11)"
  ∧ disassemble 0xC0F770E3 = "bgeu a4, a5, -1024" ∧ disassemble 0xF9CD4C83 = "lbu s9, -100(s10)"
  ∧ disassemble 0xFFF10FA3 = "sb t6, -1(sp)" ∧ disassemble 0x4042D513 = "srli a0, t0, 1028"
  ∧ disassemble 0x00208333 = "add t1, ra, sp" ∧ disassemble 0x0FF0000F = "bad instruction"

/-- Two different words that are instructions never print alike (R192). -/
def Obligations.DisassemblerIsInjectiveOnInstructions : Prop :=
  ∀ w w' : Word, w ≠ w' → disassemble w ≠ "bad instruction" → disassemble w ≠ disassemble w'
end

