-- ==== Sys2Proof/Laws/Bits.lean ====
section
/-! SUPPORT. Concatenation, fields and extension of bit patterns, as arithmetic. -/

namespace Sys2Proof

/-- Concatenation as arithmetic: the left operand stands in the more significant place (spec/00_scope.md R17). -/
theorem append_toNat {p q : Nat} (x : BitVec p) (y : BitVec q) : (x ++ y).toNat = y.toNat + 2 ^ q * x.toNat := by
  rw [BitVec.toNat_append, Nat.shiftLeft_eq, Nat.mul_comm, ← Nat.two_pow_add_eq_or_of_lt y.isLt, Nat.add_comm]

/-- A field as arithmetic: `w[start+len-1 : start]`. -/
theorem field_toNat {p : Nat} (w : BitVec p) (start len : Nat) :
    (w.extractLsb' start len).toNat = w.toNat / 2 ^ start % 2 ^ len := by
  rw [BitVec.extractLsb'_toNat, Nat.shiftRight_eq_div_pow]

end Sys2Proof
end

