-- ==== Sys2Proof/Laws/Memory.lean ====
section
/-! SUPPORT. The buffer: reading after writing, bytes left alone, and the canonical form kept by every operation. -/

namespace Sys2Proof.Machine

theorem lookupCell_insertCell (cells : List Host.Cell) (a x : Nat) (b : Byte) :
    lookupCell (insertCell cells a b) x = if x = a then b else lookupCell cells x := by
  induction cells with
  | nil => simp [insertCell, lookupCell]
  | cons c rest ih =>
    obtain ⟨a', b'⟩ := c
    unfold insertCell
    split
    · simp [lookupCell]
    · split
      · next h => subst h; by_cases hx : x = a <;> simp [lookupCell, hx]
      · next hlt hne =>
        by_cases hx : x = a'
        · subst hx; simp [lookupCell, Ne.symm hne]
        · simp [lookupCell, hx, ih]

theorem lookupCell_eraseCell (cells : List Host.Cell) (a x : Nat) :
    lookupCell (eraseCell cells a) x = if x = a then Memory.unlisted else lookupCell cells x := by
  induction cells with
  | nil => simp [eraseCell, lookupCell]
  | cons c rest ih =>
    obtain ⟨a', b'⟩ := c
    unfold eraseCell at ih ⊢
    by_cases ha : a' = a
    · subst ha
      rw [List.filter_cons_of_neg (by simp), ih]
      by_cases hx : x = a' <;> simp [lookupCell, hx]
    · rw [List.filter_cons_of_pos (by simp [ha])]
      by_cases hx : x = a'
      · subst hx; simp [lookupCell, ha]
      · rw [lookupCell, if_neg hx, lookupCell, if_neg hx, ih]

/-- All that storing a byte does to reading one; no premise on the list. -/
theorem lookupCell_storeCell (cells : List Host.Cell) (a x : Nat) (b : Byte) :
    lookupCell (storeCell cells a b) x = if x = a then b else lookupCell cells x := by
  unfold storeCell
  split
  · next h => rw [lookupCell_eraseCell, h]
  · exact lookupCell_insertCell cells a x b

@[simp] theorem setByte_size (m : Memory) (a : Nat) (b : Byte) : (m.setByte a b).size = m.size := rfl

/-- All that replacing one byte does to reading one (R50). -/
theorem byteAt_setByte (m : Memory) (a x : Nat) (b : Byte) :
    (m.setByte a b).byteAt x = if x = a then b else m.byteAt x := lookupCell_storeCell m.cells a x b

@[simp] theorem setBytes_size (m : Memory) (a : Nat) (bs : List Byte) : (m.setBytes a bs).size = m.size := by
  induction bs generalizing m a with
  | nil => rfl
  | cons b rest ih => simp [Memory.setBytes, ih]

/-- All that replacing a run of bytes does to reading one. -/
theorem byteAt_setBytes (m : Memory) (a x : Nat) (bs : List Byte) :
    (m.setBytes a bs).byteAt x = if a ≤ x then bs.getD (x - a) (m.byteAt x) else m.byteAt x := by
  induction bs generalizing m a with
  | nil => simp [Memory.setBytes]
  | cons b rest ih =>
    rw [Memory.setBytes, ih, byteAt_setByte]
    rcases Nat.lt_trichotomy x a with hx | hx | hx
    · rw [if_neg (by omega), if_neg (by omega), if_neg (by omega)]
    · subst hx; rw [if_neg (by omega), if_pos rfl, if_pos (by omega)]; simp
    · obtain ⟨d, rfl⟩ : ∃ d, x = a + 1 + d := ⟨x - (a + 1), by omega⟩
      rw [if_pos (by omega), if_neg (by omega), if_pos (by omega)]
      have h1 : a + 1 + d - (a + 1) = d := by omega
      have h2 : a + 1 + d - a = d + 1 := by omega
      rw [h1, h2, List.getD_cons_succ]

/-- Addresses strictly rising, as a pairwise fact. -/
theorem cellsSorted_iff (cells : List Host.Cell) :
    cellsSorted cells = true ↔ cells.Pairwise (fun c d => c.1 < d.1) := by
  induction cells with
  | nil => simp [cellsSorted]
  | cons c rest ih =>
    obtain ⟨a, b⟩ := c
    cases rest with
    | nil => simp [cellsSorted]
    | cons d rest =>
      obtain ⟨a', b'⟩ := d
      rw [cellsSorted, Bool.and_eq_true, decide_eq_true_eq, ih, List.pairwise_cons (l := (a', b') :: rest)]
      constructor
      · rintro ⟨hlt, hp⟩
        refine ⟨fun e he => ?_, hp⟩
        rcases List.mem_cons.1 he with rfl | he
        · exact hlt
        · exact Nat.lt_trans hlt ((List.pairwise_cons.1 hp).1 e he)
      · rintro ⟨hall, hp⟩
        exact ⟨hall _ (List.mem_cons_self ..), hp⟩

theorem mem_insertCell {cells : List Host.Cell} {a : Nat} {b : Byte} {e : Host.Cell}
    (h : e ∈ insertCell cells a b) : e = (a, b) ∨ e ∈ cells := by
  induction cells with
  | nil => simpa [insertCell] using h
  | cons c rest ih =>
    obtain ⟨a', b'⟩ := c
    unfold insertCell at h
    split at h
    · simpa using h
    · split at h
      · rcases List.mem_cons.1 h with h | h
        · exact .inl h
        · exact .inr (List.mem_cons_of_mem _ h)
      · rcases List.mem_cons.1 h with h | h
        · exact .inr (h ▸ List.mem_cons_self ..)
        · exact (ih h).imp id (List.mem_cons_of_mem _)

theorem pairwise_insertCell (cells : List Host.Cell) (a : Nat) (b : Byte)
    (h : cells.Pairwise (fun c d => c.1 < d.1)) : (insertCell cells a b).Pairwise (fun c d => c.1 < d.1) := by
  induction cells with
  | nil => simp [insertCell]
  | cons c rest ih =>
    obtain ⟨a', b'⟩ := c
    obtain ⟨hall, hrest⟩ := List.pairwise_cons.1 h
    unfold insertCell
    split
    · next hlt =>
      refine List.pairwise_cons.2 ⟨fun e he => ?_, h⟩
      rcases List.mem_cons.1 he with rfl | he
      · exact hlt
      · exact Nat.lt_trans hlt (hall e he)
    · split
      · next heq => subst heq; exact List.pairwise_cons.2 ⟨hall, hrest⟩
      · next hlt hne =>
        refine List.pairwise_cons.2 ⟨fun e he => ?_, ih hrest⟩
        rcases mem_insertCell he with rfl | he
        · simp only; omega
        · exact hall e he

/-- The canonical form, as facts. -/
theorem memory_wf_iff (m : Memory) :
    m.wf = true ↔ m.size ≤ Config.addressSpace ∧ m.cells.Pairwise (fun c d => c.1 < d.1)
      ∧ ∀ c ∈ m.cells, c.1 < m.size ∧ c.2 ≠ Memory.unlisted := by
  simp only [Memory.wf, Bool.and_eq_true, decide_eq_true_eq, cellsSorted_iff, List.all_eq_true, and_assoc]

/-- Replacing a byte inside the buffer keeps the canonical form. -/
theorem setByte_wf {m : Memory} {a : Nat} (b : Byte) (h : m.wf = true) (ha : a < m.size) : (m.setByte a b).wf = true := by
  rw [memory_wf_iff] at h ⊢
  obtain ⟨hsize, hsorted, hall⟩ := h
  refine ⟨hsize, ?_, ?_⟩
  · simp only [Memory.setByte, storeCell]
    split
    · exact hsorted.filter _
    · exact pairwise_insertCell _ _ _ hsorted
  · intro c hc
    simp only [Memory.setByte, storeCell] at hc ⊢
    split at hc
    · exact hall c (List.mem_filter.1 hc).1
    · next hb =>
      rcases mem_insertCell hc with rfl | hc
      · exact ⟨ha, hb⟩
      · exact hall c hc

/-- Replacing a run of bytes inside the buffer keeps the canonical form. -/
theorem setBytes_wf {m : Memory} {a : Nat} (bs : List Byte) (h : m.wf = true) (ha : a + bs.length ≤ m.size) :
    (m.setBytes a bs).wf = true := by
  induction bs generalizing m a with
  | nil => exact h
  | cons b rest ih =>
    simp only [List.length_cons] at ha
    exact ih (setByte_wf b h (by omega)) (by rw [setByte_size]; omega)

@[simp] theorem inRange_iff (m : Memory) (a : Word) (n : Width) :
    m.inRange a n = true ↔ a.toNat + widthBytes n ≤ m.size := by simp [Memory.inRange]

/-- `MemRead` answers exactly when the access is in range (R42, R44). -/
theorem read_eq_some_iff (m : Memory) (a : Word) (n : Width) (v : Word) :
    m.read a n = some v ↔ a.toNat + widthBytes n ≤ m.size ∧ v = m.assemble a.toNat n := by
  unfold Memory.read
  split
  · next h => rw [inRange_iff] at h; simp [h, eq_comm]
  · next h => rw [inRange_iff] at h; simp [h]

theorem read_eq_none_iff (m : Memory) (a : Word) (n : Width) :
    m.read a n = none ↔ m.size < a.toNat + widthBytes n := by
  unfold Memory.read
  split
  · next h => rw [inRange_iff] at h; simp; omega
  · next h => rw [inRange_iff] at h; simp; omega

/-- `MemWrite` writes exactly when the access is in range (R42, R45). -/
theorem write_eq_some_iff (m m' : Memory) (a : Word) (n : Width) (v : Word) :
    m.write a n v = some m' ↔ a.toNat + widthBytes n ≤ m.size
      ∧ m' = m.setBytes a.toNat ((List.range (widthBytes n)).map (byteOfWord v)) := by
  unfold Memory.write
  split
  · next h => rw [inRange_iff] at h; simp [h, eq_comm]
  · next h => rw [inRange_iff] at h; simp [h]

theorem write_eq_none_iff (m : Memory) (a : Word) (n : Width) (v : Word) :
    m.write a n v = none ↔ m.size < a.toNat + widthBytes n := by
  unfold Memory.write
  split
  · next h => rw [inRange_iff] at h; simp; omega
  · next h => rw [inRange_iff] at h; simp; omega

/-- All that a `MemWrite` leaves: its bytes, every other byte, the size, the canonical form (R45). -/
theorem write_spec {m m' : Memory} {a : Word} {n : Width} {v : Word} (h : m.write a n v = some m') :
    (∀ k, k < widthBytes n → m'.byteAt (a.toNat + k) = byteOfWord v k)
    ∧ (∀ x, (x < a.toNat ∨ a.toNat + widthBytes n ≤ x) → m'.byteAt x = m.byteAt x)
    ∧ m'.size = m.size ∧ (m.wf = true → m'.wf = true) := by
  obtain ⟨hin, rfl⟩ := (write_eq_some_iff ..).1 h
  refine ⟨fun k hk => ?_, fun x hx => ?_, setBytes_size .., fun hwf => setBytes_wf _ hwf (by simpa using hin)⟩
  · rw [byteAt_setBytes, if_pos (by omega)]
    have : a.toNat + k - a.toNat = k := by omega
    rw [this, List.getD_eq_getElem?_getD]
    simp [hk]
  · rw [byteAt_setBytes]
    split
    · rw [List.getD_eq_getElem?_getD, List.getElem?_eq_none]
      · rfl
      · simp; omega
    · rfl

end Sys2Proof.Machine
end

