-- ==== Sys2Proof/Laws/State.lean ====
section
/-! SUPPORT. One lemma per field per update of `State`. -/

namespace Sys2Proof.Machine

@[simp] theorem setPc_regs (s : State) (t : Word) : (s.setPc t).regs = s.regs := rfl
@[simp] theorem setPc_pc (s : State) (t : Word) : (s.setPc t).pc = t := rfl
@[simp] theorem setPc_dirty (s : State) (t : Word) : (s.setPc t).dirty = s.dirty := rfl
@[simp] theorem setPc_mem (s : State) (t : Word) : (s.setPc t).mem = s.mem := rfl

@[simp] theorem clearDirty_regs (s : State) : s.clearDirty.regs = s.regs := rfl
@[simp] theorem clearDirty_pc (s : State) : s.clearDirty.pc = s.pc := rfl
@[simp] theorem clearDirty_dirty (s : State) : s.clearDirty.dirty = none := rfl
@[simp] theorem clearDirty_mem (s : State) : s.clearDirty.mem = s.mem := rfl
@[simp] theorem clearDirty_clearDirty (s : State) : s.clearDirty.clearDirty = s.clearDirty := rfl

@[simp] theorem markDirty_regs (s : State) (i : RegIdx) : (s.markDirty i).regs = s.regs := rfl
@[simp] theorem markDirty_pc (s : State) (i : RegIdx) : (s.markDirty i).pc = s.pc := rfl
@[simp] theorem markDirty_dirty (s : State) (i : RegIdx) : (s.markDirty i).dirty = some i := rfl
@[simp] theorem markDirty_mem (s : State) (i : RegIdx) : (s.markDirty i).mem = s.mem := rfl

@[simp] theorem afterFault_regs (s : State) : s.afterFault.regs = s.regs := rfl
@[simp] theorem afterFault_pc (s : State) : s.afterFault.pc = s.pc := rfl
@[simp] theorem afterFault_dirty (s : State) : s.afterFault.dirty = none := rfl
@[simp] theorem afterFault_mem (s : State) : s.afterFault.mem = s.mem := rfl

@[simp] theorem resetCommand_regs (s : State) : s.resetCommand.regs = Vector.replicate 32 0 := rfl
@[simp] theorem resetCommand_pc (s : State) : s.resetCommand.pc = s.pc := rfl
@[simp] theorem resetCommand_dirty (s : State) : s.resetCommand.dirty = none := rfl
@[simp] theorem resetCommand_mem (s : State) : s.resetCommand.mem = s.mem := rfl

@[simp] theorem writeReg_pc (s : State) (i : RegIdx) (v : Word) : (s.writeReg i v).pc = s.pc := by
  unfold State.writeReg; split <;> rfl
@[simp] theorem writeReg_dirty (s : State) (i : RegIdx) (v : Word) : (s.writeReg i v).dirty = s.dirty := by
  unfold State.writeReg; split <;> rfl
@[simp] theorem writeReg_mem (s : State) (i : RegIdx) (v : Word) : (s.writeReg i v).mem = s.mem := by
  unfold State.writeReg; split <;> rfl

/-- Reading a register depends on the register file only. -/
theorem readReg_congr {s t : State} (h : t.regs = s.regs) (i : RegIdx) : t.readReg i = s.readReg i := by
  simp [State.readReg, h]

@[simp] theorem readReg_zero (s : State) : s.readReg 0 = 0 := by simp [State.readReg]
@[simp] theorem readReg_setPc (s : State) (t : Word) (i : RegIdx) : (s.setPc t).readReg i = s.readReg i := rfl
@[simp] theorem readReg_clearDirty (s : State) (i : RegIdx) : s.clearDirty.readReg i = s.readReg i := rfl
@[simp] theorem readReg_markDirty (s : State) (j i : RegIdx) : (s.markDirty j).readReg i = s.readReg i := rfl
@[simp] theorem readReg_afterFault (s : State) (i : RegIdx) : s.afterFault.readReg i = s.readReg i := rfl

/-- All that writing a register does to reading one (R18, R21). -/
theorem readReg_writeReg (s : State) (i j : RegIdx) (v : Word) :
    (s.writeReg i v).readReg j = if j = i ∧ i ≠ 0 then v else s.readReg j := by
  unfold State.writeReg State.readReg
  by_cases hi : i = 0
  · simp [hi]
  · by_cases hj : j = 0
    · subst hj; simp [hi, Ne.symm hi]
    · by_cases hij : j = i
      · subst hij; simp [hj]
      · have hne : i.val ≠ j.val := fun h => hij (Fin.ext h.symm)
        simp [hi, hj, hij, hne]

/-- A register write never touches entry 0 of the register file. -/
theorem writeReg_entry_zero (s : State) (i : RegIdx) (v : Word) :
    (s.writeReg i v).regs[(0 : RegIdx)] = s.regs[(0 : RegIdx)] := by
  unfold State.writeReg
  split
  · rfl
  · next h =>
    have hne : i.val ≠ 0 := fun hv => h (Fin.ext hv)
    simp [hne]

@[simp] theorem nextPc_congr_clearDirty (s : State) : s.clearDirty.nextPc = s.nextPc := rfl

end Sys2Proof.Machine
end

