-- ==== Sys2Proof/Laws/Ops.lean ====
section
/-! SUPPORT. One lemma for each shared operation: what it answers, and everything the state it answers holds. -/

namespace Sys2Proof.Machine

theorem nextPc_eq (s : State) : s.nextPc = sequentialPc s := by
  apply BitVec.eq_of_toNat_eq; simp [State.nextPc, sequentialPc, Config.instructionBytes]

theorem pcRelative_eq (s : State) (imm : Word) : pcRelative s imm = relativePc s imm := by
  apply BitVec.eq_of_toNat_eq; simp [pcRelative, relativePc]

theorem branchNext_eq (s : State) (c : Bool) (imm : Word) :
    branchNext s c imm = if c then relativePc s imm else sequentialPc s := by
  simp only [branchNext, nextPc_eq, pcRelative_eq]

theorem effectiveAddress_toNat (s : State) (rs1 : RegIdx) (imm : Word) :
    (effectiveAddress s rs1 imm).toNat = ((s.readReg rs1).toNat + imm.toNat) % 4294967296 := by
  simp [effectiveAddress]

theorem shiftAmount_eq (o : Word) : shiftAmount o = o.toNat % 32 := by
  simp [shiftAmount]

/-- The end of a register-writing instruction answers one state, and this is all it holds. -/
theorem finishWrite_spec (s : State) (rd : RegIdx) (v next : Word) :
    ∃ t, finishWrite s rd v next = .next t ∧ WritesRegister s t rd v next := by
  refine ⟨_, rfl, ⟨?_, fun r hr => ?_, rfl, rfl, fun a => ?_, ?_⟩⟩
  · simp only [readReg_setPc, readReg_markDirty, readReg_writeReg]
    by_cases h : rd = 0 <;> simp [h]
  · simp [readReg_writeReg, hr]
  · simp
  · simp

/-- The end of a BRANCH answers one state, and this is all it holds. -/
theorem finishNoWrite_spec (s : State) (next : Word) :
    ∃ t, finishNoWrite s next = .next t ∧ WritesNothing s t next :=
  ⟨_, rfl, ⟨fun _ => rfl, rfl, rfl, fun _ => rfl, rfl⟩⟩

/-- `finishWrite_spec` with the value and the address given in other words. -/
theorem finishWrite_of_eq {s : State} {rd : RegIdx} {v next v' next' : Word} (hv : v = v') (hn : next = next') :
    ∃ t, finishWrite s rd v next = .next t ∧ WritesRegister s t rd v' next' := by
  subst hv hn; exact finishWrite_spec s rd v next

/-- `finishNoWrite_spec` with the address given in other words. -/
theorem finishNoWrite_of_eq {s : State} {next next' : Word} (hn : next = next') :
    ∃ t, finishNoWrite s next = .next t ∧ WritesNothing s t next' := by
  subst hn; exact finishNoWrite_spec s next

theorem byteOfWord_eq (v : Word) (k : Nat) : byteOfWord v k = BitVec.ofNat 8 (v.toNat / 256 ^ k) := by
  apply BitVec.eq_of_toNat_eq
  simp [byteOfWord, Nat.shiftRight_eq_div_pow, Nat.pow_mul]

/-- The end of a STORE whose bytes are in the buffer answers one state, and this is all it holds. -/
theorem finishStore_spec (s : State) (a : Word) (n : Width) (v : Word) (h : a.toNat + widthBytes n ≤ s.mem.size) :
    ∃ t, finishStore s a n v = .next t ∧ StoresBytes s t a (widthBytes n) v (sequentialPc s) := by
  obtain ⟨m, hm⟩ : ∃ m, s.mem.write a n v = some m := ⟨_, (write_eq_some_iff ..).2 ⟨h, rfl⟩⟩
  obtain ⟨hstored, hothers, hsize, -⟩ := write_spec hm
  refine ⟨(({ s with mem := m } : State).clearDirty).setPc s.nextPc, ?_,
    ⟨?_, hothers, fun _ => rfl, nextPc_eq s, rfl, hsize⟩⟩
  · simp [finishStore, State.store, hm, finishNoWrite]
  · intro k hk; rw [← byteOfWord_eq]; exact hstored k hk

theorem finishStore_outside (s : State) (a : Word) (n : Width) (v : Word) (h : s.mem.size < a.toNat + widthBytes n) :
    finishStore s a n v = .fault .outOfBounds := by
  simp [finishStore, State.store, (write_eq_none_iff s.mem a n v).2 h, raise]

/-- The end of a LOAD whose bytes are in the buffer: the value assembled from them goes to the destination. -/
theorem finishLoad_spec (s : State) (rd : RegIdx) (a : Word) (n : Width) (f : Word → Word)
    (h : a.toNat + widthBytes n ≤ s.mem.size) :
    ∃ t, finishLoad s rd ((s.load a n).map f) = .next t
      ∧ WritesRegister s t rd (f (s.mem.assemble a.toNat n)) (sequentialPc s) := by
  have hr : s.load a n = some (s.mem.assemble a.toNat n) := (read_eq_some_iff ..).2 ⟨h, rfl⟩
  rw [hr, ← nextPc_eq]
  exact finishWrite_spec s rd _ _

theorem finishLoad_outside (s : State) (rd : RegIdx) (a : Word) (n : Width) (f : Word → Word)
    (h : s.mem.size < a.toNat + widthBytes n) : finishLoad s rd ((s.load a n).map f) = .fault .outOfBounds := by
  have hr : s.load a n = none := (read_eq_none_iff ..).2 h
  rw [hr]; rfl

/-- The value of the bytes from an address up, as a number (R43). -/
theorem assemble_toNat (m : Memory) (a : Nat) (n : Width) :
    (m.assemble a n).toNat = match n with
      | .byte => (m.byteAt a).toNat
      | .half => (m.byteAt a).toNat + 256 * (m.byteAt (a + 1)).toNat
      | .word => (m.byteAt a).toNat + 256 * (m.byteAt (a + 1)).toNat + 65536 * (m.byteAt (a + 2)).toNat
          + 16777216 * (m.byteAt (a + 3)).toNat := by
  have h0 := (m.byteAt a).isLt
  have h1 := (m.byteAt (a + 1)).isLt
  cases n
  · simp [Memory.assemble, zext]; omega
  · simp only [Memory.assemble, zext, BitVec.toNat_setWidth, append_toNat]; omega
  · simp only [Memory.assemble, wordOfBytes, append_toNat]; omega

/-- The bytes of an assembled value (R44). -/
theorem assemble_bytes (m : Memory) (a : Nat) (n : Width) :
    (m.assemble a n).toNat < 256 ^ widthBytes n
    ∧ ∀ k, k < widthBytes n → (m.assemble a n).toNat / 256 ^ k % 256 = (m.byteAt (a + k)).toNat := by
  rw [assemble_toNat]
  have h0 := (m.byteAt a).isLt
  have h1 := (m.byteAt (a + 1)).isLt
  have h2 := (m.byteAt (a + 2)).isLt
  have h3 := (m.byteAt (a + 3)).isLt
  cases n <;> simp only [widthBytes] <;> refine ⟨by omega, fun k hk => ?_⟩ <;> interval_cases k <;> norm_num
    <;> omega

/-- The value assembled from the bytes of a number (R43). -/
theorem assemble_of_bytes (m : Memory) (a : Nat) (n : Width) (v : Nat)
    (h : ∀ k, k < widthBytes n → (m.byteAt (a + k)).toNat = v / 256 ^ k % 256) :
    (m.assemble a n).toNat = v % 256 ^ widthBytes n := by
  rw [assemble_toNat]
  cases n <;> simp only [widthBytes] at h ⊢
  · have := h 0 (by decide); norm_num at this ⊢; omega
  · have h0 := h 0 (by decide); have h1 := h 1 (by decide); norm_num at h0 h1 ⊢; omega
  · have h0 := h 0 (by decide); have h1 := h 1 (by decide); have h2 := h 2 (by decide); have h3 := h 3 (by decide)
    norm_num at h0 h1 h2 h3 ⊢; omega

theorem byteOfWord_toNat (v : Word) (k : Nat) : (byteOfWord v k).toNat = v.toNat / 256 ^ k % 256 := by rw [byteOfWord_eq]; simp

end Sys2Proof.Machine
end

