-- ==== Sys2Proof/Laws/Alu.lean ====
section
/-! SUPPORT. The value of each ALU operation, as the rules give it. -/

namespace Sys2Proof.Machine

/-- Addition modulo 2^32 (R156). -/
theorem word_add_eq (a b : Word) : a + b = BitVec.ofNat 32 (a.toNat + b.toNat) := by
  apply BitVec.eq_of_toNat_eq; simp

/-- R159. -/
theorem aluSlt_eq (a b : Word) : aluSlt a b = if a.toInt < b.toInt then 1 else 0 := by simp [aluSlt, truthWord, isLessSigned]

/-- R160. -/
theorem aluSltu_eq (a b : Word) : aluSltu a b = if a.toNat < b.toNat then 1 else 0 := by simp [aluSltu, truthWord, isLessUnsigned]

/-- R161. -/
theorem aluXor_eq (a b : Word) : aluXor a b = BitVec.ofNat 32 (a.toNat ^^^ b.toNat) := by
  apply BitVec.eq_of_toNat_eq; simp [aluXor]

/-- R164. -/
theorem aluOr_eq (a b : Word) : aluOr a b = BitVec.ofNat 32 (a.toNat ||| b.toNat) := by
  apply BitVec.eq_of_toNat_eq; simp [aluOr]

/-- R165. -/
theorem aluAnd_eq (a b : Word) : aluAnd a b = BitVec.ofNat 32 (a.toNat &&& b.toNat) := by
  apply BitVec.eq_of_toNat_eq; simp [aluAnd]

/-- R158. -/
theorem aluSll_eq (a b : Word) : aluSll a b = BitVec.ofNat 32 (a.toNat * 2 ^ (b.toNat % 32)) := by
  apply BitVec.eq_of_toNat_eq; rw [aluSll, shiftAmount_eq, BitVec.toNat_shiftLeft, Nat.shiftLeft_eq, BitVec.toNat_ofNat]

/-- R162. -/
theorem aluSrl_eq (a b : Word) : aluSrl a b = BitVec.ofNat 32 (a.toNat / 2 ^ (b.toNat % 32)) := by
  apply BitVec.eq_of_toNat_eq; rw [aluSrl, shiftAmount_eq, BitVec.toNat_ushiftRight, Nat.shiftRight_eq_div_pow,
    BitVec.toNat_ofNat]
  symm
  apply Nat.mod_eq_of_lt; exact lt_of_le_of_lt (Nat.div_le_self ..) a.isLt

/-- R163: the floor of the signed value over the power of two. -/
theorem aluSra_eq (a b : Word) : aluSra a b = BitVec.ofInt 32 (a.toInt / 2 ^ (b.toNat % 32)) := by
  apply BitVec.eq_of_toInt_eq
  rw [aluSra, shiftAmount_eq, BitVec.toInt_sshiftRight, Int.shiftRight_eq_div_pow, BitVec.toInt_ofInt]
  have h1 := BitVec.le_toInt a
  have h2 := BitVec.toInt_lt (x := a)
  have hp : (0:Int) < 2 ^ (b.toNat % 32) := by positivity
  have hcast : ((2 ^ (b.toNat % 32) : Nat) : Int) = 2 ^ (b.toNat % 32) := by push_cast; rfl
  rw [hcast]
  symm
  rw [Int.bmod_eq_of_le]
  · refine le_trans ?_ (Int.ediv_le_ediv hp h1)
    rw [Int.le_ediv_iff_mul_le hp]; norm_num; nlinarith
  · have : a.toInt / 2 ^ (b.toNat % 32) < 2 ^ 31 := by
      rw [Int.ediv_lt_iff_lt_mul hp]; norm_num at h2 ⊢; nlinarith
    norm_num at this ⊢; omega

/-- R157. -/
theorem word_sub_eq (a b : Word) : a - b = BitVec.ofInt 32 ((a.toNat : Int) - (b.toNat : Int)) := by
  apply BitVec.eq_of_toInt_eq
  rw [BitVec.toInt_ofInt, BitVec.toInt_sub]
  simp [BitVec.toInt_eq_toNat_bmod]

end Sys2Proof.Machine
end

