-- ==== Sys2Proof/Laws/Encoding.lean ====
section
/-! SUPPORT. Fields of words, as arithmetic: what each extractor reads, what each encoder writes, what each immediate is. -/

namespace Sys2Proof

@[simp] theorem regOfBits_bitsOfReg (r : RegIdx) : regOfBits (bitsOfReg r) = r := rfl
@[simp] theorem bitsOfReg_regOfBits (b : BitVec 5) : bitsOfReg (regOfBits b) = b := rfl
theorem bitsOfReg_toNat (r : RegIdx) : (bitsOfReg r).toNat = r.val := rfl
theorem regOfBits_val (b : BitVec 5) : (regOfBits b).val = b.toNat := rfl

theorem opcodeOf_toNat (w : Word) : (opcodeOf w).toNat = w.toNat % 128 := by
  simp [opcodeOf]
theorem rdOf_val (w : Word) : (rdOf w).val = w.toNat / 128 % 32 := by
  rw [rdOf, regOfBits_val, field_toNat]; norm_num
theorem funct3Of_toNat (w : Word) : (funct3Of w).toNat = w.toNat / 4096 % 8 := by
  rw [funct3Of, field_toNat]; norm_num
theorem rs1Of_val (w : Word) : (rs1Of w).val = w.toNat / 32768 % 32 := by
  rw [rs1Of, regOfBits_val, field_toNat]; norm_num
theorem rs2Of_val (w : Word) : (rs2Of w).val = w.toNat / 1048576 % 32 := by
  rw [rs2Of, regOfBits_val, field_toNat]; norm_num
theorem funct7Of_toNat (w : Word) : (funct7Of w).toNat = w.toNat / 33554432 % 128 := by
  rw [funct7Of, field_toNat]; norm_num

/-- Sign extension as arithmetic: the high bits are copies of the top bit (R70). -/
theorem sext_toNat {n : Nat} (v : BitVec n) (h : n ≤ 32) :
    (sext v).toNat = if v.toNat < 2 ^ (n - 1) then v.toNat else v.toNat + (4294967296 - 2 ^ n) := by
  have hlt : v.toNat < 2 ^ n := v.isLt
  have hle : (2 : Nat) ^ n ≤ 2 ^ 32 := Nat.pow_le_pow_right (by omega) h
  have hmsb : v.msb = decide (2 ^ (n - 1) ≤ v.toNat) := BitVec.msb_eq_decide v
  rw [sext, BitVec.toNat_signExtend, BitVec.toNat_setWidth, Nat.mod_eq_of_lt (by omega), hmsb]
  by_cases hc : v.toNat < 2 ^ (n - 1)
  · rw [if_pos hc, if_neg (by simpa using hc)]; rfl
  · rw [if_neg hc, if_pos (by simpa using hc)]

/-- A sign-extended value keeps its two's-complement reading. -/
theorem sext_toInt {n : Nat} (v : BitVec n) (h : n ≤ 32) : (sext v).toInt = v.toInt :=
  BitVec.toInt_signExtend_of_le h

theorem word_toInt (v : Word) : v.toInt = if v.toNat < 2147483648 then (v.toNat : Int) else v.toNat - 4294967296 := by
  rw [BitVec.toInt_eq_toNat_cond]; split <;> split <;> omega

theorem immI_toNat (w : Word) :
    (immI w).toNat = if w.toNat < 2147483648 then w.toNat / 1048576 else w.toNat / 1048576 + 4294963200 := by
  have hw := w.isLt
  rw [immI, sext_toNat _ (by omega), field_toNat]
  norm_num only
  split <;> split <;> omega

theorem immS_toNat (w : Word) :
    (immS w).toNat = w.toNat / 33554432 * 32 + w.toNat / 128 % 32 + if w.toNat < 2147483648 then 0 else 4294963200 := by
  have hw := w.isLt
  rw [immS, sext_toNat _ (by omega), append_toNat, field_toNat, field_toNat]
  norm_num only
  have h7 : w.toNat / 33554432 % 128 = w.toNat / 33554432 := Nat.mod_eq_of_lt (by omega)
  rw [h7]
  split <;> split <;> omega

theorem immB_toNat (w : Word) :
    (immB w).toNat = w.toNat / 2147483648 * 4096 + w.toNat / 128 % 2 * 2048 + w.toNat / 33554432 % 64 * 32
      + w.toNat / 256 % 16 * 2 + if w.toNat < 2147483648 then 0 else 4294959104 := by
  have hw := w.isLt
  rw [immB, sext_toNat _ (by omega)]
  simp only [append_toNat, field_toNat]
  have h0 : (0#1).toNat = 0 := rfl
  rw [h0]
  norm_num only
  split <;> split <;> omega

theorem immU_toNat (w : Word) : (immU w).toNat = w.toNat / 4096 * 4096 := by
  have hw := w.isLt
  have h0 : (0#12).toNat = 0 := rfl
  rw [immU, append_toNat, field_toNat, h0]
  omega

theorem immJ_toNat (w : Word) :
    (immJ w).toNat = w.toNat / 2147483648 * 1048576 + w.toNat / 4096 % 256 * 4096 + w.toNat / 1048576 % 2 * 2048
      + w.toNat / 2097152 % 1024 * 2 + if w.toNat < 2147483648 then 0 else 4292870144 := by
  have hw := w.isLt
  rw [immJ, sext_toNat _ (by omega)]
  simp only [append_toNat, field_toNat]
  have h0 : (0#1).toNat = 0 := rfl
  rw [h0]
  norm_num only
  split <;> split <;> omega

theorem encodeR_toNat (f7 : BitVec 7) (f3 : BitVec 3) (rd rs1 rs2 : RegIdx) (op : BitVec 7) :
    (encodeR f7 f3 rd rs1 rs2 op).toNat = op.toNat + 128 * rd.val + 4096 * f3.toNat + 32768 * rs1.val
      + 1048576 * rs2.val + 33554432 * f7.toNat := by
  simp only [encodeR, append_toNat, bitsOfReg_toNat]; omega

theorem encodeI_toNat (f3 : BitVec 3) (rd rs1 : RegIdx) (imm : Word) (op : BitVec 7) :
    (encodeI f3 rd rs1 imm op).toNat = op.toNat + 128 * rd.val + 4096 * f3.toNat + 32768 * rs1.val
      + 1048576 * (imm.toNat % 4096) := by
  simp only [encodeI, append_toNat, bitsOfReg_toNat, field_toNat]; norm_num only; omega

theorem encodeS_toNat (f3 : BitVec 3) (rs1 rs2 : RegIdx) (imm : Word) (op : BitVec 7) :
    (encodeS f3 rs1 rs2 imm op).toNat = op.toNat + 128 * (imm.toNat % 32) + 4096 * f3.toNat + 32768 * rs1.val
      + 1048576 * rs2.val + 33554432 * (imm.toNat / 32 % 128) := by
  simp only [encodeS, append_toNat, bitsOfReg_toNat, field_toNat]; norm_num only; omega

theorem encodeB_toNat (f3 : BitVec 3) (rs1 rs2 : RegIdx) (imm : Word) (op : BitVec 7) :
    (encodeB f3 rs1 rs2 imm op).toNat = op.toNat + 128 * (imm.toNat / 2048 % 2) + 256 * (imm.toNat / 2 % 16)
      + 4096 * f3.toNat + 32768 * rs1.val + 1048576 * rs2.val + 33554432 * (imm.toNat / 32 % 64)
      + 2147483648 * (imm.toNat / 4096 % 2) := by
  simp only [encodeB, append_toNat, bitsOfReg_toNat, field_toNat]; norm_num only; omega

theorem encodeU_toNat (rd : RegIdx) (imm : Word) (op : BitVec 7) :
    (encodeU rd imm op).toNat = op.toNat + 128 * rd.val + 4096 * (imm.toNat / 4096) := by
  have h := imm.isLt
  simp only [encodeU, append_toNat, bitsOfReg_toNat, field_toNat]; norm_num only; omega

theorem encodeJ_toNat (rd : RegIdx) (imm : Word) (op : BitVec 7) :
    (encodeJ rd imm op).toNat = op.toNat + 128 * rd.val + 4096 * (imm.toNat / 4096 % 256)
      + 1048576 * (imm.toNat / 2048 % 2) + 2097152 * (imm.toNat / 2 % 1024)
      + 2147483648 * (imm.toNat / 1048576 % 2) := by
  simp only [encodeJ, append_toNat, bitsOfReg_toNat, field_toNat]; norm_num only; omega

/-- Every field of an R word. -/
theorem fields_encodeR (f7 : BitVec 7) (f3 : BitVec 3) (rd rs1 rs2 : RegIdx) (op : BitVec 7) :
    opcodeOf (encodeR f7 f3 rd rs1 rs2 op) = op ∧ funct7Of (encodeR f7 f3 rd rs1 rs2 op) = f7
    ∧ funct3Of (encodeR f7 f3 rd rs1 rs2 op) = f3 ∧ rdOf (encodeR f7 f3 rd rs1 rs2 op) = rd
    ∧ rs1Of (encodeR f7 f3 rd rs1 rs2 op) = rs1 ∧ rs2Of (encodeR f7 f3 rd rs1 rs2 op) = rs2 := by
  have h := encodeR_toNat f7 f3 rd rs1 rs2 op
  have := f7.isLt
  have := f3.isLt
  have := op.isLt
  simp only [BitVec.toNat_eq, Fin.ext_iff, opcodeOf_toNat, funct7Of_toNat, funct3Of_toNat, rdOf_val, rs1Of_val, rs2Of_val, h]
  omega

/-- Every field of an I word. -/
theorem fields_encodeI (f3 : BitVec 3) (rd rs1 : RegIdx) (imm : Word) (op : BitVec 7) :
    opcodeOf (encodeI f3 rd rs1 imm op) = op ∧ funct3Of (encodeI f3 rd rs1 imm op) = f3
    ∧ rdOf (encodeI f3 rd rs1 imm op) = rd ∧ rs1Of (encodeI f3 rd rs1 imm op) = rs1 := by
  have h := encodeI_toNat f3 rd rs1 imm op
  have := f3.isLt
  have := op.isLt
  simp only [BitVec.toNat_eq, Fin.ext_iff, opcodeOf_toNat, funct3Of_toNat, rdOf_val, rs1Of_val, h]
  omega

/-- Every field of an S word. -/
theorem fields_encodeS (f3 : BitVec 3) (rs1 rs2 : RegIdx) (imm : Word) (op : BitVec 7) :
    opcodeOf (encodeS f3 rs1 rs2 imm op) = op ∧ funct3Of (encodeS f3 rs1 rs2 imm op) = f3
    ∧ rs1Of (encodeS f3 rs1 rs2 imm op) = rs1 ∧ rs2Of (encodeS f3 rs1 rs2 imm op) = rs2 := by
  have h := encodeS_toNat f3 rs1 rs2 imm op
  have := f3.isLt
  have := op.isLt
  have hp : imm.toNat % 32 < 32 := Nat.mod_lt _ (by decide)
  have hq : imm.toNat / 32 % 128 < 128 := Nat.mod_lt _ (by decide)
  generalize imm.toNat % 32 = p at *
  generalize imm.toNat / 32 % 128 = q at *
  simp only [BitVec.toNat_eq, Fin.ext_iff, opcodeOf_toNat, funct3Of_toNat, rs1Of_val, rs2Of_val, h]
  omega

/-- Every field of a B word. -/
theorem fields_encodeB (f3 : BitVec 3) (rs1 rs2 : RegIdx) (imm : Word) (op : BitVec 7) :
    opcodeOf (encodeB f3 rs1 rs2 imm op) = op ∧ funct3Of (encodeB f3 rs1 rs2 imm op) = f3
    ∧ rs1Of (encodeB f3 rs1 rs2 imm op) = rs1 ∧ rs2Of (encodeB f3 rs1 rs2 imm op) = rs2 := by
  have h := encodeB_toNat f3 rs1 rs2 imm op
  have := f3.isLt
  have := op.isLt
  have hp : imm.toNat / 2 % 16 < 16 := Nat.mod_lt _ (by decide)
  have hq : imm.toNat / 32 % 64 < 64 := Nat.mod_lt _ (by decide)
  have hr : imm.toNat / 2048 % 2 < 2 := Nat.mod_lt _ (by decide)
  have ht : imm.toNat / 4096 % 2 < 2 := Nat.mod_lt _ (by decide)
  generalize imm.toNat / 2 % 16 = p at *
  generalize imm.toNat / 32 % 64 = q at *
  generalize imm.toNat / 2048 % 2 = r at *
  generalize imm.toNat / 4096 % 2 = t at *
  simp only [BitVec.toNat_eq, Fin.ext_iff, opcodeOf_toNat, funct3Of_toNat, rs1Of_val, rs2Of_val, h]
  omega

/-- Every field of a U word. -/
theorem fields_encodeU (rd : RegIdx) (imm : Word) (op : BitVec 7) :
    opcodeOf (encodeU rd imm op) = op ∧ rdOf (encodeU rd imm op) = rd := by
  have h := encodeU_toNat rd imm op
  have := op.isLt
  simp only [BitVec.toNat_eq, Fin.ext_iff, opcodeOf_toNat, rdOf_val, h]
  omega

/-- Every field of a J word. -/
theorem fields_encodeJ (rd : RegIdx) (imm : Word) (op : BitVec 7) :
    opcodeOf (encodeJ rd imm op) = op ∧ rdOf (encodeJ rd imm op) = rd := by
  have h := encodeJ_toNat rd imm op
  have := op.isLt
  have hp : imm.toNat / 2 % 1024 < 1024 := Nat.mod_lt _ (by decide)
  have hq : imm.toNat / 2048 % 2 < 2 := Nat.mod_lt _ (by decide)
  have hr : imm.toNat / 4096 % 256 < 256 := Nat.mod_lt _ (by decide)
  have ht : imm.toNat / 1048576 % 2 < 2 := Nat.mod_lt _ (by decide)
  generalize imm.toNat / 2 % 1024 = p at *
  generalize imm.toNat / 2048 % 2 = q at *
  generalize imm.toNat / 4096 % 256 = r at *
  generalize imm.toNat / 1048576 % 2 = t at *
  simp only [BitVec.toNat_eq, Fin.ext_iff, opcodeOf_toNat, rdOf_val, h]
  omega

/-- A 12-bit immediate as a range of its pattern. -/
theorem immFits12_iff (imm : Word) : immFits12 imm = true ↔ imm.toNat < 2048 ∨ 4294965248 ≤ imm.toNat := by
  have := imm.isLt
  simp only [immFits12, Bool.and_eq_true, decide_eq_true_eq, word_toInt]
  split <;> omega

theorem immFitsB_iff (imm : Word) :
    immFitsB imm = true ↔ (imm.toNat < 4096 ∨ 4294963200 ≤ imm.toNat) ∧ imm.toNat % 2 = 0 := by
  have := imm.isLt
  simp only [immFitsB, Bool.and_eq_true, decide_eq_true_eq, word_toInt]
  split <;> omega

theorem immFitsU_iff (imm : Word) : immFitsU imm = true ↔ imm.toNat % 4096 = 0 := by
  simp only [immFitsU, decide_eq_true_eq]

theorem immFitsJ_iff (imm : Word) :
    immFitsJ imm = true ↔ (imm.toNat < 1048576 ∨ 4293918720 ≤ imm.toNat) ∧ imm.toNat % 2 = 0 := by
  have := imm.isLt
  simp only [immFitsJ, Bool.and_eq_true, decide_eq_true_eq, word_toInt]
  split <;> omega

/-- The immediate an I word was made with (R71). -/
theorem immI_encodeI (f3 : BitVec 3) (rd rs1 : RegIdx) {imm : Word} (op : BitVec 7) (h : immFits12 imm = true) :
    immI (encodeI f3 rd rs1 imm op) = imm := by
  rw [immFits12_iff] at h
  have := f3.isLt
  have := op.isLt
  apply BitVec.eq_of_toNat_eq
  rw [immI_toNat, encodeI_toNat]
  split <;> omega

/-- The immediate an S word was made with (R71). -/
theorem immS_encodeS (f3 : BitVec 3) (rs1 rs2 : RegIdx) {imm : Word} (op : BitVec 7) (h : immFits12 imm = true) :
    immS (encodeS f3 rs1 rs2 imm op) = imm := by
  rw [immFits12_iff] at h
  have := f3.isLt
  have := op.isLt
  apply BitVec.eq_of_toNat_eq
  rw [immS_toNat, encodeS_toNat]
  have hp : imm.toNat % 32 < 32 := Nat.mod_lt _ (by decide)
  have hq : imm.toNat / 32 % 128 < 128 := Nat.mod_lt _ (by decide)
  have hs : imm.toNat % 4096 = imm.toNat % 32 + 32 * (imm.toNat / 32 % 128) := by omega
  generalize imm.toNat % 32 = p at *
  generalize imm.toNat / 32 % 128 = q at *
  split <;> omega

/-- The immediate a B word was made with (R71). -/
theorem immB_encodeB (f3 : BitVec 3) (rs1 rs2 : RegIdx) {imm : Word} (op : BitVec 7) (h : immFitsB imm = true) :
    immB (encodeB f3 rs1 rs2 imm op) = imm := by
  rw [immFitsB_iff] at h
  have := f3.isLt
  have := op.isLt
  apply BitVec.eq_of_toNat_eq
  have hp : imm.toNat / 2 % 16 < 16 := Nat.mod_lt _ (by decide)
  have hq : imm.toNat / 32 % 64 < 64 := Nat.mod_lt _ (by decide)
  have hr : imm.toNat / 2048 % 2 < 2 := Nat.mod_lt _ (by decide)
  have ht : imm.toNat / 4096 % 2 < 2 := Nat.mod_lt _ (by decide)
  have hs : imm.toNat % 8192 = 2 * (imm.toNat / 2 % 16) + 32 * (imm.toNat / 32 % 64) + 2048 * (imm.toNat / 2048 % 2)
      + 4096 * (imm.toNat / 4096 % 2) := by omega
  have he := encodeB_toNat f3 rs1 rs2 imm op
  generalize imm.toNat / 2 % 16 = p at *
  generalize imm.toNat / 32 % 64 = q at *
  generalize imm.toNat / 2048 % 2 = r at *
  generalize imm.toNat / 4096 % 2 = t at *
  have hd : (encodeB f3 rs1 rs2 imm op).toNat / 2147483648 = t := by omega
  have hn : (encodeB f3 rs1 rs2 imm op).toNat < 2147483648 ↔ t = 0 := by clear hs h; omega
  have hc : (encodeB f3 rs1 rs2 imm op).toNat / 128 % 2 = r := by clear hd hn hs h; omega
  have hb : (encodeB f3 rs1 rs2 imm op).toNat / 33554432 = q + 64 * t := by clear hd hn hc hs h; omega
  have ha : (encodeB f3 rs1 rs2 imm op).toNat / 256
      = p + 16 * (f3.toNat + 8 * rs1.val + 256 * rs2.val + 8192 * q + 524288 * t) := by clear hd hn hc hb hs h; omega
  rw [immB_toNat, hd, hc, hb, ha, Nat.add_mul_mod_self_left, Nat.add_mul_mod_self_left, Nat.mod_eq_of_lt hp,
    Nat.mod_eq_of_lt hq]
  clear hd hc hb ha he
  simp only [hn]
  clear hn
  split <;> omega

/-- The immediate a U word was made with (R71). -/
theorem immU_encodeU (rd : RegIdx) {imm : Word} (op : BitVec 7) (h : immFitsU imm = true) :
    immU (encodeU rd imm op) = imm := by
  rw [immFitsU_iff] at h
  have := op.isLt
  apply BitVec.eq_of_toNat_eq
  rw [immU_toNat, encodeU_toNat]
  omega

/-- The immediate a J word was made with (R71). -/
theorem immJ_encodeJ (rd : RegIdx) {imm : Word} (op : BitVec 7) (h : immFitsJ imm = true) :
    immJ (encodeJ rd imm op) = imm := by
  rw [immFitsJ_iff] at h
  have := op.isLt
  apply BitVec.eq_of_toNat_eq
  have hp : imm.toNat / 2 % 1024 < 1024 := Nat.mod_lt _ (by decide)
  have hq : imm.toNat / 2048 % 2 < 2 := Nat.mod_lt _ (by decide)
  have hr : imm.toNat / 4096 % 256 < 256 := Nat.mod_lt _ (by decide)
  have ht : imm.toNat / 1048576 % 2 < 2 := Nat.mod_lt _ (by decide)
  have hs : imm.toNat % 2097152 = 2 * (imm.toNat / 2 % 1024) + 2048 * (imm.toNat / 2048 % 2) + 4096 * (imm.toNat / 4096 % 256)
      + 1048576 * (imm.toNat / 1048576 % 2) := by omega
  have he := encodeJ_toNat rd imm op
  generalize imm.toNat / 2 % 1024 = p at *
  generalize imm.toNat / 2048 % 2 = q at *
  generalize imm.toNat / 4096 % 256 = r at *
  generalize imm.toNat / 1048576 % 2 = t at *
  have hd : (encodeJ rd imm op).toNat / 2147483648 = t := by omega
  have hn : (encodeJ rd imm op).toNat < 2147483648 ↔ t = 0 := by clear hs h; omega
  have hc : (encodeJ rd imm op).toNat / 4096 = r + 256 * (q + 2 * p + 2048 * t) := by clear hd hn hs h; omega
  have hb : (encodeJ rd imm op).toNat / 1048576 = q + 2 * (p + 1024 * t) := by clear hd hn hc hs h; omega
  have ha : (encodeJ rd imm op).toNat / 2097152 = p + 1024 * t := by clear hd hn hc hb hs h; omega
  rw [immJ_toNat, hd, hc, hb, ha, Nat.add_mul_mod_self_left, Nat.add_mul_mod_self_left, Nat.add_mul_mod_self_left,
    Nat.mod_eq_of_lt hp, Nat.mod_eq_of_lt hq, Nat.mod_eq_of_lt hr]
  clear hd hc hb ha he
  simp only [hn]
  clear hn
  split <;> omega

end Sys2Proof
end

