-- ==== Sys2Proof/Laws/Decoding.lean ====
section
/-! SUPPORT. What the router and the encoders give back of a word's own fields. -/

namespace Sys2Proof

/-- The router answers a group on its opcode only (R62). -/
theorem route_eq_some {op : BitVec 7} {g : Group} (h : route op = some g) : op = groupOpcode g := by
  unfold route at h
  split at h <;> first | (injection h with h; subst h; rfl) | contradiction

/-- Every immediate an extraction gives can be encoded. -/
theorem fits12_immI (w : Word) : immFits12 (immI w) = true := by
  have := w.isLt
  rw [immFits12_iff, immI_toNat]; split <;> omega

theorem fits12_immS (w : Word) : immFits12 (immS w) = true := by
  have := w.isLt
  rw [immFits12_iff, immS_toNat]; split <;> omega

theorem fits_immB (w : Word) : immFitsB (immB w) = true := by
  have := w.isLt
  rw [immFitsB_iff, immB_toNat]; split <;> omega

theorem fits_immU (w : Word) : immFitsU (immU w) = true := by
  rw [immFitsU_iff, immU_toNat]; omega

theorem fits_immJ (w : Word) : immFitsJ (immJ w) = true := by
  have := w.isLt
  rw [immFitsJ_iff, immJ_toNat]; split <;> omega

/-- The R encoder, given the fields of a word, gives the word. -/
theorem encodeR_fields (w : Word) : encodeR (funct7Of w) (funct3Of w) (rdOf w) (rs1Of w) (rs2Of w) (opcodeOf w) = w := by
  have := w.isLt
  apply BitVec.eq_of_toNat_eq
  rw [encodeR_toNat, opcodeOf_toNat, rdOf_val, funct3Of_toNat, rs1Of_val, rs2Of_val, funct7Of_toNat]; omega

/-- The I encoder, given the fields of a word, gives the word. -/
theorem encodeI_fields (w : Word) : encodeI (funct3Of w) (rdOf w) (rs1Of w) (immI w) (opcodeOf w) = w := by
  have := w.isLt
  apply BitVec.eq_of_toNat_eq
  rw [encodeI_toNat, opcodeOf_toNat, rdOf_val, funct3Of_toNat, rs1Of_val, immI_toNat]
  split <;> omega

/-- The U encoder, given the fields of a word, gives the word. -/
theorem encodeU_fields (w : Word) : encodeU (rdOf w) (immU w) (opcodeOf w) = w := by
  have := w.isLt
  apply BitVec.eq_of_toNat_eq
  rw [encodeU_toNat, opcodeOf_toNat, rdOf_val, immU_toNat]; omega

/-- The S encoder, given the fields of a word, gives the word. -/
theorem encodeS_fields (w : Word) : encodeS (funct3Of w) (rs1Of w) (rs2Of w) (immS w) (opcodeOf w) = w := by
  apply BitVec.eq_of_getLsbD_eq
  intro i hi
  have e : (encodeS (funct3Of w) (rs1Of w) (rs2Of w) (immS w) (opcodeOf w)).getLsbD i
      = ((immS w).extractLsb' 5 7 ++ w.extractLsb' 20 5 ++ w.extractLsb' 15 5 ++ w.extractLsb' 12 3
        ++ (immS w).extractLsb' 0 5 ++ w.extractLsb' 0 7).getLsbD i := rfl
  rw [e]; clear e
  simp only [BitVec.getLsbD_append, immS, sext, BitVec.getLsbD_signExtend, BitVec.getLsbD_extractLsb', BitVec.msb_eq_getLsbD_last]
  interval_cases i <;> simp [-BitVec.getLsbD_eq_getElem]

/-- The B encoder, given the fields of a word, gives the word. -/
theorem encodeB_fields (w : Word) : encodeB (funct3Of w) (rs1Of w) (rs2Of w) (immB w) (opcodeOf w) = w := by
  apply BitVec.eq_of_getLsbD_eq
  intro i hi
  have e : (encodeB (funct3Of w) (rs1Of w) (rs2Of w) (immB w) (opcodeOf w)).getLsbD i
      = ((immB w).extractLsb' 12 1 ++ (immB w).extractLsb' 5 6 ++ w.extractLsb' 20 5 ++ w.extractLsb' 15 5 ++ w.extractLsb' 12 3
        ++ (immB w).extractLsb' 1 4 ++ (immB w).extractLsb' 11 1 ++ w.extractLsb' 0 7).getLsbD i := rfl
  rw [e]; clear e
  simp only [BitVec.getLsbD_append, immB, sext, BitVec.getLsbD_signExtend, BitVec.getLsbD_extractLsb', BitVec.msb_eq_getLsbD_last]
  interval_cases i <;> simp [-BitVec.getLsbD_eq_getElem]

/-- The J encoder, given the fields of a word, gives the word. -/
theorem encodeJ_fields (w : Word) : encodeJ (rdOf w) (immJ w) (opcodeOf w) = w := by
  apply BitVec.eq_of_getLsbD_eq
  intro i hi
  have e : (encodeJ (rdOf w) (immJ w) (opcodeOf w)).getLsbD i
      = ((immJ w).extractLsb' 20 1 ++ (immJ w).extractLsb' 1 10 ++ (immJ w).extractLsb' 11 1
        ++ (immJ w).extractLsb' 12 8 ++ w.extractLsb' 7 5 ++ w.extractLsb' 0 7).getLsbD i := rfl
  rw [e]; clear e
  simp only [BitVec.getLsbD_append, immJ, sext, BitVec.getLsbD_signExtend, BitVec.getLsbD_extractLsb', BitVec.msb_eq_getLsbD_last]
  interval_cases i <;> simp [-BitVec.getLsbD_eq_getElem]

end Sys2Proof
end

