-- ==== Sys2Proof/Laws/Disassemble.lean ====
section
/-! SUPPORT. The parts of an instruction's text: register names and numbers are told apart, and contain no separator. -/

namespace Sys2Proof.Machine

/-- The characters that separate the parts of a text (R185). -/
def isSeparator (c : Char) : Bool := c == ' ' || c == ',' || c == '('

/-- A text without a separator. -/
def plainText (t : String) : Prop := ∀ c ∈ t.toList, isSeparator c = false

/-- The 32 names of R22 differ. -/
theorem abiNames_idxOf : ∀ r : RegIdx, abiNames.idxOf (abiName r) = r.val := by decide

theorem abiName_injective {r q : RegIdx} (h : abiName r = abiName q) : r = q := by
  apply Fin.ext; rw [← abiNames_idxOf r, ← abiNames_idxOf q, h]

theorem plainText_of_all {t : String} (h : t.toList.all (fun c => !isSeparator c) = true) : plainText t := by
  simpa [plainText] using h

theorem abiName_all : ∀ r : RegIdx, (abiName r).toList.all (fun c => !isSeparator c) = true := by decide

theorem abiName_plain (r : RegIdx) : plainText (abiName r) := plainText_of_all (abiName_all r)

theorem mnemonicText_plain (i : Instr) : plainText (mnemonicText i) := by
  apply plainText_of_all
  cases i <;> simp only [mnemonicText] <;> decide

/-- The decimal of R184 tells immediates apart. -/
theorem signedDecimal_injective {v u : Word} (h : signedDecimal v = signedDecimal u) : v = u :=
  BitVec.eq_of_toInt_eq (Int.repr_inj.1 h)

theorem isDigit_not_separator {c : Char} (h : c.isDigit = true) : isSeparator c = false := by
  by_contra hc
  simp only [Bool.not_eq_false, isSeparator, Bool.or_eq_true, beq_iff_eq] at hc
  rcases hc with (rfl | rfl) | rfl <;> exact absurd h (by decide)

theorem natRepr_plain (n : Nat) : plainText n.repr := by
  intro c hc
  rw [Nat.repr_eq_ofList_toDigits, String.toList_ofList] at hc
  exact isDigit_not_separator (Nat.isDigit_of_mem_toDigits (by decide) (by decide) hc)

theorem signedDecimal_plain (v : Word) : plainText (signedDecimal v) := by
  unfold signedDecimal
  intro c hc
  cases hv : v.toInt with
  | ofNat n => rw [hv] at hc; exact natRepr_plain n c hc
  | negSucc n =>
    rw [hv] at hc
    simp only [Int.repr, String.toList_append, List.mem_append] at hc
    rcases hc with hc | hc
    · exact plainText_of_all (t := "-") rfl c hc
    · exact natRepr_plain _ c hc

/-- The value of a hexadecimal digit. -/
def hexValue (c : Char) : Nat := if c.isDigit then c.toNat - 48 else c.toNat - 87

theorem hexValue_digitChar : ∀ d : Fin 16, hexValue (Nat.digitChar d.val) = d.val := by decide

/-- Reading hexadecimal digits back. -/
theorem hexValue_toDigits (n : Nat) : (Nat.toDigits 16 n).foldl (fun a c => 16 * a + hexValue c) 0 = n := by
  induction n using Nat.strong_induction_on with
  | _ n ih =>
    rw [Nat.toDigits_eq_if (by decide)]
    split
    · next h => simpa using hexValue_digitChar ⟨n, h⟩
    · next h =>
      rw [List.foldl_append, ih (n / 16) (by omega)]
      have := hexValue_digitChar ⟨n % 16, Nat.mod_lt _ (by decide)⟩
      simp only [List.foldl_cons, List.foldl_nil] at this ⊢
      rw [this]; omega

/-- The hexadecimal of R184 tells upper immediates apart. -/
theorem upperHex_injective {v u : Word} (h : upperHex v = upperHex u) : v.extractLsb' 12 20 = u.extractLsb' 12 20 := by
  have h' := congrArg String.toList h
  simp only [upperHex, String.toList_append, String.toList_ofList, List.append_cancel_left_eq] at h'
  have h2 := congrArg (List.foldl (fun a c => 16 * a + hexValue c) 0) h'
  rw [hexValue_toDigits, hexValue_toDigits] at h2
  exact BitVec.eq_of_toNat_eq h2

/-- Two texts that are equal up to and after their first separator are equal part by part. -/
theorem split_at_separator {a b x y : List Char} {c : Char} (ha : ∀ d ∈ a, isSeparator d = false)
    (hb : ∀ d ∈ b, isSeparator d = false) (hc : isSeparator c = true) (h : a ++ c :: x = b ++ c :: y) : a = b ∧ x = y := by
  induction a generalizing b with
  | nil =>
    cases b with
    | nil => simpa using h
    | cons d b =>
      simp only [List.nil_append, List.cons_append, List.cons.injEq] at h
      have := hb d List.mem_cons_self
      rw [← h.1, hc] at this; exact Bool.noConfusion this
  | cons d a ih =>
    cases b with
    | nil =>
      simp only [List.nil_append, List.cons_append, List.cons.injEq] at h
      have := ha d List.mem_cons_self
      rw [h.1, hc] at this; exact Bool.noConfusion this
    | cons e b =>
      simp only [List.cons_append, List.cons.injEq] at h
      obtain ⟨h1, h2⟩ := ih (fun d hd => ha d (List.mem_cons_of_mem _ hd)) (fun d hd => hb d (List.mem_cons_of_mem _ hd)) h.2
      exact ⟨by rw [h.1, h1], h2⟩

/-- The mnemonic and the operands can be read off the text. -/
theorem instrText_parts {i j : Instr} (h : instrText i = instrText j) :
    mnemonicText i = mnemonicText j ∧ operandText i = operandText j := by
  have h := congrArg String.toList h
  simp only [instrText, String.toList_append, List.append_assoc] at h
  obtain ⟨h1, h2⟩ := split_at_separator (c := ' ') (mnemonicText_plain i) (mnemonicText_plain j) rfl h
  exact ⟨String.toList_inj.1 h1, String.toList_inj.1 h2⟩

/-- `split_at_separator` for texts. -/
theorem split_text {a b : String} {x y : List Char} {c : Char} (ha : plainText a) (hb : plainText b) (hc : isSeparator c = true)
    (h : a.toList ++ c :: x = b.toList ++ c :: y) : a = b ∧ x = y := by
  obtain ⟨h1, h2⟩ := split_at_separator ha hb hc h
  exact ⟨String.toList_inj.1 h1, h2⟩

/-- The operand texts of R185 to R191 determine the operands. -/
theorem operandsUpper_injective {r q : RegIdx} {v u : Word} (hv : immFitsU v = true) (hu : immFitsU u = true)
    (h : operandsUpper r v = operandsUpper q u) : r = q ∧ v = u := by
  have h := congrArg String.toList h
  simp only [operandsUpper, String.toList_append, List.append_assoc] at h
  obtain ⟨h1, h2⟩ := split_text (c := ',') (abiName_plain r) (abiName_plain q) rfl h
  have h3 := upperHex_injective (String.toList_inj.1 (List.cons.inj h2).2)
  refine ⟨abiName_injective h1, ?_⟩
  rw [immFitsU_iff] at hv hu
  apply BitVec.eq_of_toNat_eq
  have := congrArg BitVec.toNat h3
  rw [field_toNat, field_toNat] at this
  have := v.isLt; have := u.isLt; omega

theorem operandsJump_injective {r q : RegIdx} {v u : Word} (h : operandsJump r v = operandsJump q u) : r = q ∧ v = u := by
  have h := congrArg String.toList h
  simp only [operandsJump, String.toList_append, List.append_assoc] at h
  obtain ⟨h1, h2⟩ := split_text (c := ',') (abiName_plain r) (abiName_plain q) rfl h
  exact ⟨abiName_injective h1, signedDecimal_injective (String.toList_inj.1 (List.cons.inj h2).2)⟩

theorem operandsImmediate_injective {r q r' q' : RegIdx} {v u : Word}
    (h : operandsImmediate r r' v = operandsImmediate q q' u) : r = q ∧ r' = q' ∧ v = u := by
  have h := congrArg String.toList h
  simp only [operandsImmediate, String.toList_append, List.append_assoc] at h
  obtain ⟨h1, h2⟩ := split_text (c := ',') (abiName_plain r) (abiName_plain q) rfl h
  obtain ⟨h3, h4⟩ := split_text (c := ',') (abiName_plain r') (abiName_plain q') rfl (List.cons.inj h2).2
  exact ⟨abiName_injective h1, abiName_injective h3,
    signedDecimal_injective (String.toList_inj.1 (List.cons.inj h4).2)⟩

theorem operandsRegister_injective {r q r' q' r'' q'' : RegIdx}
    (h : operandsRegister r r' r'' = operandsRegister q q' q'') : r = q ∧ r' = q' ∧ r'' = q'' := by
  have h := congrArg String.toList h
  simp only [operandsRegister, String.toList_append, List.append_assoc] at h
  obtain ⟨h1, h2⟩ := split_text (c := ',') (abiName_plain r) (abiName_plain q) rfl h
  obtain ⟨h3, h4⟩ := split_text (c := ',') (abiName_plain r') (abiName_plain q') rfl (List.cons.inj h2).2
  exact ⟨abiName_injective h1, abiName_injective h3,
    abiName_injective (String.toList_inj.1 (List.cons.inj h4).2)⟩

theorem operandsMemory_injective {r q r' q' : RegIdx} {v u : Word}
    (h : operandsMemory r r' v = operandsMemory q q' u) : r = q ∧ r' = q' ∧ v = u := by
  have h := congrArg String.toList h
  simp only [operandsMemory, String.toList_append, List.append_assoc] at h
  obtain ⟨h1, h2⟩ := split_text (c := ',') (abiName_plain r) (abiName_plain q) rfl h
  obtain ⟨h3, h4⟩ := split_text (c := '(') (signedDecimal_plain v) (signedDecimal_plain u) rfl (List.cons.inj h2).2
  exact ⟨abiName_injective h1, abiName_injective (String.toList_inj.1 (List.append_cancel_right h4)),
    signedDecimal_injective h3⟩

end Sys2Proof.Machine
end

