-- ==== Sys2Proof/Laws/PerInstr.lean ====
section
/-! SUPPORT. What holds of every instruction as syntax, one lemma per constructor. -/

namespace Sys2Proof.Laws.RoutedGroup

/-- The router sends the word of an instruction to the instruction's own group (R62, R71). -/
def Statement (i : Instr) : Prop := route (opcodeOf (encode i)) = some i.group

theorem lui (rd : RegIdx) (imm : Word) : Statement (.lui rd imm) := by
  unfold Statement encode; rw [(fields_encodeU ..).1]; rfl

theorem auipc (rd : RegIdx) (imm : Word) : Statement (.auipc rd imm) := by
  unfold Statement encode; rw [(fields_encodeU ..).1]; rfl

theorem jal (rd : RegIdx) (imm : Word) : Statement (.jal rd imm) := by
  unfold Statement encode; rw [(fields_encodeJ ..).1]; rfl

theorem jalr (rd rs1 : RegIdx) (imm : Word) : Statement (.jalr rd rs1 imm) := by
  unfold Statement encode; rw [(fields_encodeI ..).1]; rfl

theorem beq (rs1 rs2 : RegIdx) (imm : Word) : Statement (.beq rs1 rs2 imm) := by
  unfold Statement encode; rw [(fields_encodeB ..).1]; rfl

theorem bne (rs1 rs2 : RegIdx) (imm : Word) : Statement (.bne rs1 rs2 imm) := by
  unfold Statement encode; rw [(fields_encodeB ..).1]; rfl

theorem blt (rs1 rs2 : RegIdx) (imm : Word) : Statement (.blt rs1 rs2 imm) := by
  unfold Statement encode; rw [(fields_encodeB ..).1]; rfl

theorem bge (rs1 rs2 : RegIdx) (imm : Word) : Statement (.bge rs1 rs2 imm) := by
  unfold Statement encode; rw [(fields_encodeB ..).1]; rfl

theorem bltu (rs1 rs2 : RegIdx) (imm : Word) : Statement (.bltu rs1 rs2 imm) := by
  unfold Statement encode; rw [(fields_encodeB ..).1]; rfl

theorem bgeu (rs1 rs2 : RegIdx) (imm : Word) : Statement (.bgeu rs1 rs2 imm) := by
  unfold Statement encode; rw [(fields_encodeB ..).1]; rfl

theorem lb (rd rs1 : RegIdx) (imm : Word) : Statement (.lb rd rs1 imm) := by
  unfold Statement encode; rw [(fields_encodeI ..).1]; rfl

theorem lh (rd rs1 : RegIdx) (imm : Word) : Statement (.lh rd rs1 imm) := by
  unfold Statement encode; rw [(fields_encodeI ..).1]; rfl

theorem lw (rd rs1 : RegIdx) (imm : Word) : Statement (.lw rd rs1 imm) := by
  unfold Statement encode; rw [(fields_encodeI ..).1]; rfl

theorem lbu (rd rs1 : RegIdx) (imm : Word) : Statement (.lbu rd rs1 imm) := by
  unfold Statement encode; rw [(fields_encodeI ..).1]; rfl

theorem lhu (rd rs1 : RegIdx) (imm : Word) : Statement (.lhu rd rs1 imm) := by
  unfold Statement encode; rw [(fields_encodeI ..).1]; rfl

theorem sb (rs1 rs2 : RegIdx) (imm : Word) : Statement (.sb rs1 rs2 imm) := by
  unfold Statement encode; rw [(fields_encodeS ..).1]; rfl

theorem sh (rs1 rs2 : RegIdx) (imm : Word) : Statement (.sh rs1 rs2 imm) := by
  unfold Statement encode; rw [(fields_encodeS ..).1]; rfl

theorem sw (rs1 rs2 : RegIdx) (imm : Word) : Statement (.sw rs1 rs2 imm) := by
  unfold Statement encode; rw [(fields_encodeS ..).1]; rfl

theorem addi (rd rs1 : RegIdx) (imm : Word) : Statement (.addi rd rs1 imm) := by
  unfold Statement encode; rw [(fields_encodeI ..).1]; rfl

theorem slli (rd rs1 : RegIdx) (imm : Word) : Statement (.slli rd rs1 imm) := by
  unfold Statement encode; rw [(fields_encodeI ..).1]; rfl

theorem slti (rd rs1 : RegIdx) (imm : Word) : Statement (.slti rd rs1 imm) := by
  unfold Statement encode; rw [(fields_encodeI ..).1]; rfl

theorem sltiu (rd rs1 : RegIdx) (imm : Word) : Statement (.sltiu rd rs1 imm) := by
  unfold Statement encode; rw [(fields_encodeI ..).1]; rfl

theorem xori (rd rs1 : RegIdx) (imm : Word) : Statement (.xori rd rs1 imm) := by
  unfold Statement encode; rw [(fields_encodeI ..).1]; rfl

theorem srli (rd rs1 : RegIdx) (imm : Word) : Statement (.srli rd rs1 imm) := by
  unfold Statement encode; rw [(fields_encodeI ..).1]; rfl

theorem ori (rd rs1 : RegIdx) (imm : Word) : Statement (.ori rd rs1 imm) := by
  unfold Statement encode; rw [(fields_encodeI ..).1]; rfl

theorem andi (rd rs1 : RegIdx) (imm : Word) : Statement (.andi rd rs1 imm) := by
  unfold Statement encode; rw [(fields_encodeI ..).1]; rfl

theorem add (rd rs1 rs2 : RegIdx) : Statement (.add rd rs1 rs2) := by
  unfold Statement encode; rw [(fields_encodeR ..).1]; rfl

theorem sub (rd rs1 rs2 : RegIdx) : Statement (.sub rd rs1 rs2) := by
  unfold Statement encode; rw [(fields_encodeR ..).1]; rfl

theorem sll (rd rs1 rs2 : RegIdx) : Statement (.sll rd rs1 rs2) := by
  unfold Statement encode; rw [(fields_encodeR ..).1]; rfl

theorem slt (rd rs1 rs2 : RegIdx) : Statement (.slt rd rs1 rs2) := by
  unfold Statement encode; rw [(fields_encodeR ..).1]; rfl

theorem sltu (rd rs1 rs2 : RegIdx) : Statement (.sltu rd rs1 rs2) := by
  unfold Statement encode; rw [(fields_encodeR ..).1]; rfl

theorem xor (rd rs1 rs2 : RegIdx) : Statement (.xor rd rs1 rs2) := by
  unfold Statement encode; rw [(fields_encodeR ..).1]; rfl

theorem srl (rd rs1 rs2 : RegIdx) : Statement (.srl rd rs1 rs2) := by
  unfold Statement encode; rw [(fields_encodeR ..).1]; rfl

theorem sra (rd rs1 rs2 : RegIdx) : Statement (.sra rd rs1 rs2) := by
  unfold Statement encode; rw [(fields_encodeR ..).1]; rfl

theorem or (rd rs1 rs2 : RegIdx) : Statement (.or rd rs1 rs2) := by
  unfold Statement encode; rw [(fields_encodeR ..).1]; rfl

theorem and (rd rs1 rs2 : RegIdx) : Statement (.and rd rs1 rs2) := by
  unfold Statement encode; rw [(fields_encodeR ..).1]; rfl

end Sys2Proof.Laws.RoutedGroup
end

