-- ==== Sys2Proof/Laws/Step.lean ====
section
/-! SUPPORT. What one instruction and one step can do, said once. -/

namespace Sys2Proof.Machine

/-- What a LOAD can do. -/
theorem finishLoad_cases (s : State) (rd : RegIdx) (v : Option Word) :
    (∃ x, v = some x ∧ finishLoad s rd v = finishWrite s rd x s.nextPc)
    ∨ (v = none ∧ finishLoad s rd v = .fault .outOfBounds) := by
  cases v with
  | none => exact .inr ⟨rfl, rfl⟩
  | some x => exact .inl ⟨x, rfl, rfl⟩

/-- What a STORE can do. -/
theorem finishStore_cases (s : State) (a : Word) (n : Width) (v : Word) :
    (∃ m, s.mem.write a n v = some m
      ∧ finishStore s a n v = .next ((({ s with mem := m } : State).clearDirty).setPc s.nextPc))
    ∨ (s.mem.write a n v = none ∧ finishStore s a n v = .fault .outOfBounds) := by
  unfold finishStore State.store
  cases h : s.mem.write a n v with
  | none => exact .inr ⟨rfl, rfl⟩
  | some m => exact .inl ⟨m, rfl, rfl⟩

/-- The four ways an instruction can end: a register written, nothing written, bytes stored, out of bounds. -/
inductive InstrEnd (i : Instr) (s : State) (o : Host.Outcome State Fault Refusal) : Prop where
  | writes (rd : RegIdx) (v next : Word) (hd : i.dest = some rd) (h : o = finishWrite s rd v next)
  | nothing (next : Word) (hd : i.dest = none) (h : o = finishNoWrite s next)
  | stores (a : Word) (n : Width) (v : Word) (m : Memory) (hd : i.dest = none) (hg : i.group = .store)
      (hm : s.mem.write a n v = some m) (h : o = .next ((({ s with mem := m } : State).clearDirty).setPc s.nextPc))
  | outside (hx : DataOutside i s) (h : o = .fault .outOfBounds)

theorem finishLoad_end {i : Instr} {s : State} {rd : RegIdx} {a : Word} {n : Width} (f : Word → Word)
    (hd : i.dest = some rd) (hx : dataAccess i s = some (a, widthBytes n)) :
    InstrEnd i s (finishLoad s rd ((s.load a n).map f)) := by
  rcases finishLoad_cases s rd ((s.load a n).map f) with ⟨x, -, h⟩ | ⟨hv, h⟩
  · exact .writes rd x _ hd h
  · rw [Option.map_eq_none_iff] at hv
    exact .outside ⟨a, _, hx, (read_eq_none_iff ..).1 hv⟩ h

theorem finishStore_end {i : Instr} {s : State} {a : Word} {n : Width} (v : Word)
    (hd : i.dest = none) (hg : i.group = .store) (hx : dataAccess i s = some (a, widthBytes n)) :
    InstrEnd i s (finishStore s a n v) := by
  rcases finishStore_cases s a n v with ⟨m, hm, h⟩ | ⟨hm, h⟩
  · exact .stores a n v m hd hg hm h
  · exact .outside ⟨a, _, hx, (write_eq_none_iff ..).1 hm⟩ h

/-- Every instruction ends in one of the four ways. -/
theorem exec_end (i : Instr) (s : State) : InstrEnd i s (exec i s) := by
  cases i with
  | beq => exact .nothing _ rfl rfl
  | bne => exact .nothing _ rfl rfl
  | blt => exact .nothing _ rfl rfl
  | bge => exact .nothing _ rfl rfl
  | bltu => exact .nothing _ rfl rfl
  | bgeu => exact .nothing _ rfl rfl
  | lb => exact finishLoad_end (n := .byte) signedByte rfl rfl
  | lh => exact finishLoad_end (n := .half) signedHalf rfl rfl
  | lw rd rs1 imm =>
    have h := finishLoad_end (i := .lw rd rs1 imm) (s := s) (n := .word) id rfl rfl
    rwa [Option.map_id] at h
  | lbu => exact finishLoad_end (n := .byte) unsignedByte rfl rfl
  | lhu => exact finishLoad_end (n := .half) unsignedHalf rfl rfl
  | sb => exact finishStore_end (n := .byte) _ rfl rfl rfl
  | sh => exact finishStore_end (n := .half) _ rfl rfl rfl
  | sw => exact finishStore_end (n := .word) _ rfl rfl rfl
  | _ => exact .writes _ _ _ rfl rfl

/-- The fetch answers exactly when the four bytes at `pc` are in the buffer (R47). -/
theorem fetch_eq_some_iff (s : State) (w : Word) :
    s.fetch = some w ↔ s.pc.toNat + 4 ≤ s.mem.size ∧ w = wordAtPc s := by
  unfold State.fetch State.load
  rw [read_eq_some_iff]
  have hw : s.mem.assemble s.pc.toNat .word = wordAtPc s := by
    apply BitVec.eq_of_toNat_eq
    rw [assemble_toNat]
    have h0 := (s.mem.byteAt s.pc.toNat).isLt
    have h1 := (s.mem.byteAt (s.pc.toNat + 1)).isLt
    have h2 := (s.mem.byteAt (s.pc.toNat + 2)).isLt
    have h3 := (s.mem.byteAt (s.pc.toNat + 3)).isLt
    simp only [wordAtPc, BitVec.toNat_ofNat]; omega
  rw [hw]; rfl

theorem fetch_eq_none_iff (s : State) : s.fetch = none ↔ s.mem.size < s.pc.toNat + 4 := by
  unfold State.fetch State.load
  exact read_eq_none_iff ..

/-- What a step can do: fault on the fetch, fault on the word, or run the decoded instruction. -/
theorem step_cases (s : State) :
    (s.fetch = none ∧ step s = .fault .outOfBounds)
    ∨ (∃ w e, s.fetch = some w ∧ decode w = .error e ∧ step s = .fault .malformedInstruction)
    ∨ (∃ w i, s.fetch = some w ∧ decode w = .ok i ∧ step s = exec i s.clearDirty) := by
  have hf : s.clearDirty.fetch = s.fetch := rfl
  unfold step stepOnce executeBody
  rw [hf]
  cases h : s.fetch with
  | none => exact .inl ⟨rfl, rfl⟩
  | some w =>
    cases hd : decode w with
    | error e => exact .inr (.inl ⟨w, e, rfl, hd, by simp [hd, raise]⟩)
    | ok i => exact .inr (.inr ⟨w, i, rfl, hd, by simp [hd]⟩)

/-- What `execute(word)` can do. -/
theorem executeWord_cases (w : Word) (s : State) :
    (∃ e, decode w = .error e ∧ executeWord w s = .fault .malformedInstruction)
    ∨ (∃ i, decode w = .ok i ∧ executeWord w s = exec i s.clearDirty) := by
  unfold executeWord executeBody
  cases hd : decode w with
  | error e => exact .inl ⟨e, rfl, rfl⟩
  | ok i => exact .inr ⟨i, rfl, rfl⟩

/-- `execute` of a word that decodes. -/
theorem executeWord_of_decode {w : Word} {i : Instr} (s : State) (h : decode w = .ok i) :
    executeWord w s = exec i s.clearDirty := by
  unfold executeWord executeBody
  rw [h]
  rfl

/-- The bytes of a fetched word, lowest address first. -/
theorem fetch_byte {s : State} {w : Word} (h : s.fetch = some w) {k : Nat} (hk : k < 4) :
    w.toNat / 256 ^ k % 256 = (s.mem.byteAt (s.pc.toNat + k)).toNat := by
  rw [((read_eq_some_iff ..).1 h).2]
  exact (assemble_bytes _ _ .word).2 k hk

/-- Enlarging the buffer for a fetch keeps the canonical form. -/
theorem fetchable_wf {s : State} (h : s.mem.wf = true) : s.fetchable.mem.wf = true := by
  unfold State.fetchable
  split
  · exact h
  · rw [memory_wf_iff] at h ⊢
    obtain ⟨h1, h2, h3⟩ := h
    refine ⟨?_, h2, fun c hc => ?_⟩
    · simp only [Config.instructionBytes, Config.addressSpace] at h1 ⊢; omega
    · have := h3 c hc
      exact ⟨lt_of_lt_of_le this.1 (le_max_left ..), this.2⟩

theorem fetchable_inRange (s : State) : s.fetchable.pc.toNat + 4 ≤ s.fetchable.mem.size := by
  unfold State.fetchable
  split
  · next h => simpa [widthBytes] using h
  · simp [Config.instructionBytes]

/-- Placing a word where the next step fetches keeps the canonical form. -/
theorem withFetchWord_wf {s : State} (nbits w : Nat) (h : s.mem.wf = true) : (s.withFetchWord nbits w).mem.wf = true :=
  setBytes_wf _ (fetchable_wf h) (by simpa [Config.instructionBytes] using fetchable_inRange s)

end Sys2Proof.Machine
end

