-- ==== Sys2Proof/Tests/Slice0.lean ====
section
/-! SUPPORT. Small tests, expected results taken from spec/95_test_vectors.md (its section is named), and a witness for the
hypotheses of every statement that has any. -/

namespace Sys2Proof.Tests

open Sys2Proof.Machine

/-- A state of spec/95_test_vectors.md: MEM_SIZE = 0x1000, some registers, some bytes, an old marker. -/
def testState (pc : Word) (regs : List (RegIdx × Word)) (bytes : List (Nat × Byte)) : State :=
  writeEntryRegs
    { State.reset with pc := pc, dirty := some 7, mem := bytes.foldl (fun m c => m.setByte c.1 c.2) ⟨0x1000, []⟩ } regs

/-- What a command leaves, as far as a row of the tables tells: the reply, `pc`, the marker, one register. -/
def after (w : Word) (s : State) (r : RegIdx) : Reply × Word × Option RegIdx × Word :=
  let q := command (.execute w) s
  (q.2, q.1.pc, q.1.dirty, q.1.readReg r)

/-- Registers t0 and t1 (5 and 6), `pc` = 0x100. -/
def operands (t0 t1 : Word) : State := testState 0x100 [(5, t0), (6, t1)] []

/-- The five bytes of section 2.5 at 0x200. -/
def loadBytes : List (Nat × Byte) := [(0x200, 0xFF), (0x201, 0x80), (0x202, 0x34), (0x203, 0x12), (0x204, 0x7F)]

/-- Opcode, funct3 and funct7 of a word. -/
def selectors (w : Word) : BitVec 7 × BitVec 3 × BitVec 7 := (opcodeOf w, funct3Of w, funct7Of w)

/-! ## Well-formedness: an ill-formed term for each check is refused, the nearest well-formed one is not -/

theorem test_wf_imm12_too_large : (Instr.addi 1 2 2048).wf = false ∧ (Instr.addi 1 2 2047).wf = true := by decide
theorem test_wf_imm12_too_small : (Instr.sw 1 2 0xFFFFF7FF).wf = false ∧ (Instr.sw 1 2 0xFFFFF800).wf = true := by decide
theorem test_wf_immB_odd : (Instr.beq 1 2 3).wf = false ∧ (Instr.beq 1 2 2).wf = true := by decide
theorem test_wf_immB_too_large : (Instr.bgeu 1 2 4096).wf = false ∧ (Instr.bgeu 1 2 4094).wf = true := by decide
theorem test_wf_immB_too_small : (Instr.blt 1 2 0xFFFFEFFE).wf = false ∧ (Instr.blt 1 2 0xFFFFF000).wf = true := by decide
theorem test_wf_immU_low_bits : (Instr.lui 1 0x12345678).wf = false ∧ (Instr.lui 1 0x12345000).wf = true := by decide
theorem test_wf_immJ_odd : (Instr.jal 1 5).wf = false ∧ (Instr.jal 1 4).wf = true := by decide
theorem test_wf_immJ_too_large : (Instr.jal 1 1048576).wf = false ∧ (Instr.jal 1 1048574).wf = true := by decide
theorem test_wf_immJ_too_small : (Instr.jal 1 0xFFEFFFFE).wf = false ∧ (Instr.jal 1 0xFFF00000).wf = true := by decide

/-! ## Decoding, field by field as the format tables of spec/30_encoding.md lay the words out -/

theorem test_bits_lui : decode (0b00010010001101000101#20 ++ 0b00101#5 ++ 0b0110111#7) = .ok (.lui 5 0x12345000) := by decide
theorem test_bits_auipc : decode (0b00000000000000000001#20 ++ 0b01010#5 ++ 0b0010111#7) = .ok (.auipc 10 0x1000) := by decide
theorem test_bits_jal :
    decode (0b1#1 ++ 0b1111111100#10 ++ 0b1#1 ++ 0b11111111#8 ++ 0b00000#5 ++ 0b1101111#7) = .ok (.jal 0 0xFFFFFFF8) := by
  decide
theorem test_bits_jalr :
    decode (0b000000000100#12 ++ 0b00010#5 ++ 0b000#3 ++ 0b00001#5 ++ 0b1100111#7) = .ok (.jalr 1 2 4) := by decide
theorem test_bits_branch :
    decode (0b0#1 ++ 0b000000#6 ++ 0b00110#5 ++ 0b00101#5 ++ 0b000#3 ++ 0b0000#4 ++ 0b1#1 ++ 0b1100011#7)
      = .ok (.beq 5 6 0x800) := by decide
theorem test_bits_load :
    decode (0b111111111100#12 ++ 0b00101#5 ++ 0b010#3 ++ 0b01010#5 ++ 0b0000011#7) = .ok (.lw 10 5 0xFFFFFFFC) := by decide
theorem test_bits_store :
    decode (0b0111111#7 ++ 0b00110#5 ++ 0b00101#5 ++ 0b010#3 ++ 0b11111#5 ++ 0b0100011#7) = .ok (.sw 5 6 0x7FF) := by decide
theorem test_bits_opImm :
    decode (0b010000000100#12 ++ 0b00101#5 ++ 0b101#3 ++ 0b01010#5 ++ 0b0010011#7) = .ok (.srli 10 5 0x404) := by decide
theorem test_bits_op :
    decode (0b0100000#7 ++ 0b00110#5 ++ 0b00101#5 ++ 0b000#3 ++ 0b01010#5 ++ 0b0110011#7) = .ok (.sub 10 5 6) := by decide

/-! ## Decoding of every constructor (section 2.10: the word and the instruction its text names) -/

theorem test_decode_upper : decode 0xABCDEFB7 = .ok (.lui 31 0xABCDE000) ∧ decode 0x00010197 = .ok (.auipc 3 0x10000) := by
  decide
theorem test_decode_jumps : decode 0xFFFFF46F = .ok (.jal 8 0xFFFFFFFE) ∧ decode 0x7FE004EF = .ok (.jal 9 2046)
    ∧ decode 0x800D8967 = .ok (.jalr 18 27 0xFFFFF800) ∧ decode 0x7FFE0267 = .ok (.jalr 4 28 2047) := by decide
theorem test_decode_branches : decode 0xFF088FE3 = .ok (.beq 17 16 0xFFFFFFFE) ∧ decode 0x0FEE9F63 = .ok (.bne 29 30 254)
    ∧ decode 0xF124C0E3 = .ok (.blt 9 18 0xFFFFFF00) ∧ decode 0x0041D263 = .ok (.bge 3 4 4)
    ∧ decode 0x40D66063 = .ok (.bltu 12 13 1024) ∧ decode 0xC0F770E3 = .ok (.bgeu 14 15 0xFFFFFC00) := by decide
theorem test_decode_loads : decode 0xFFFA0983 = .ok (.lb 19 20 0xFFFFFFFF) ∧ decode 0x002B1A83 = .ok (.lh 21 22 2)
    ∧ decode 0x064C2B83 = .ok (.lw 23 24 100) ∧ decode 0xF9CD4C83 = .ok (.lbu 25 26 0xFFFFFF9C)
    ∧ decode 0x00015383 = .ok (.lhu 7 2 0) := by decide
theorem test_decode_stores : decode 0xFFF10FA3 = .ok (.sb 2 31 0xFFFFFFFF) ∧ decode 0x01119123 = .ok (.sh 3 17 2)
    ∧ decode 0x00112623 = .ok (.sw 2 1 12) := by decide
theorem test_decode_opImm : decode 0xFF010113 = .ok (.addi 2 2 0xFFFFFFF0) ∧ decode 0x003E9E13 = .ok (.slli 28 29 3)
    ∧ decode 0xFFB32393 = .ok (.slti 7 6 0xFFFFFFFB) ∧ decode 0x00163593 = .ok (.sltiu 11 12 1)
    ∧ decode 0x0FF74693 = .ok (.xori 13 14 255) ∧ decode 0x01F85793 = .ok (.srli 15 16 31)
    ∧ decode 0xF0096893 = .ok (.ori 17 18 0xFFFFFF00) ∧ decode 0x00FA7993 = .ok (.andi 19 20 15) := by decide
theorem test_decode_op : decode 0x01DF0FB3 = .ok (.add 31 30 29) ∧ decode 0x41AD8E33 = .ok (.sub 28 27 26)
    ∧ decode 0x017C1CB3 = .ok (.sll 25 24 23) ∧ decode 0x014AAB33 = .ok (.slt 22 21 20)
    ∧ decode 0x011939B3 = .ok (.sltu 19 18 17) ∧ decode 0x00E7C833 = .ok (.xor 16 15 14)
    ∧ decode 0x00B656B3 = .ok (.srl 13 12 11) ∧ decode 0x4084D533 = .ok (.sra 10 9 8)
    ∧ decode 0x005363B3 = .ok (.or 7 6 5) ∧ decode 0x0021F233 = .ok (.and 4 3 2) := by decide

/-- The seven conditions of R74, by words of section 2.9. -/
theorem test_decode_malformed : decode 0x00000073 = .error .unknownOpcode ∧ decode 0x004110E7 = .error .jalrFunct3
    ∧ decode 0x0062A863 = .error .branchFunct3 ∧ decode 0x0002F503 = .error .loadFunct3
    ∧ decode 0x0062B023 = .error .storeFunct3 ∧ decode 0x02628533 = .error .opFunct7
    ∧ decode 0x40629533 = .error .opFunct3 := by decide

/-- Byte order (R43) and what stands after the first instruction. -/
theorem test_decodeBytes : decodeBytes [0xB7, 0x52, 0x34, 0x12, 0x13] = .ok (.lui 5 0x12345000, [0x13])
    ∧ decodeBytes [0xB7, 0x52, 0x34] = .error .truncated := by decide
theorem test_decodeTableWord : decodeTableWord 32 0x40628533 = some (.sub 10 5 6) ∧ decodeTableWord 32 0x73 = none
    ∧ decodeTableWord 8 0xFFFFFF37 = some (.lui 0 0) ∧ decodeTableWord 40 0x37 = none := by decide

/-! ## One step each: reply, `pc`, marker and a register -/

theorem test_lui_rd_zero : after 0x12345037 (operands 0 0) 0 = (.done, 0x104, some 0, 0) := by decide
theorem test_lui_pc_wraps : after 0x800002B7 (testState 0xFFFFFFFC [] []) 5 = (.done, 0, some 5, 0x80000000) := by decide
theorem test_auipc_wraps : after 0x80000517 (testState 0x80000010 [] []) 10 = (.done, 0x80000014, some 10, 0x10) := by decide
theorem test_jal_link_wraps : after 0x008000EF (testState 0xFFFFFFFC [] []) 1 = (.done, 4, some 1, 0) := by decide
theorem test_jal_backwards : after 0x800000EF (operands 0 0) 1 = (.done, 0xFFF00100, some 1, 0x104) := by decide
theorem test_jalr_rd_is_rs1 : after 0x000080E7 (testState 0x100 [(1, 0x300)] []) 1 = (.done, 0x300, some 1, 0x104) := by decide
theorem test_jalr_keeps_bit_0 : after 0x003100E7 (testState 0x100 [(2, 0x200)] []) 1 = (.done, 0x203, some 1, 0x104) := by decide
theorem test_beq : after 0x00628863 (operands 5 5) 5 = (.done, 0x110, none, 5)
    ∧ after 0x00628863 (operands 5 7) 5 = (.done, 0x104, none, 5) := by decide
theorem test_bne : after 0x00629863 (operands 5 7) 5 = (.done, 0x110, none, 5)
    ∧ after 0x00629863 (operands 5 5) 5 = (.done, 0x104, none, 5) := by decide
theorem test_blt : after 0x0062C863 (operands 0xFFFFFFFF 1) 6 = (.done, 0x110, none, 1)
    ∧ after 0x0062C863 (operands 1 0xFFFFFFFF) 5 = (.done, 0x104, none, 1) := by decide
theorem test_bge : after 0x0062D863 (operands 1 0xFFFFFFFF) 5 = (.done, 0x110, none, 1)
    ∧ after 0x0062D863 (operands 0x80000000 0x7FFFFFFF) 6 = (.done, 0x104, none, 0x7FFFFFFF) := by decide
theorem test_bltu : after 0x0062E863 (operands 1 0xFFFFFFFF) 5 = (.done, 0x110, none, 1)
    ∧ after 0x0062E863 (operands 0xFFFFFFFF 1) 6 = (.done, 0x104, none, 1) := by decide
theorem test_bgeu : after 0x0062F863 (operands 0xFFFFFFFF 1) 6 = (.done, 0x110, none, 1)
    ∧ after 0x0062F863 (operands 5 7) 5 = (.done, 0x104, none, 5) := by decide
theorem test_lb : after 0x00128503 (testState 0x100 [(5, 0x200)] loadBytes) 10 = (.done, 0x104, some 10, 0xFFFFFF80) := by
  decide
theorem test_lh : after 0x00029503 (testState 0x100 [(5, 0x200)] loadBytes) 10 = (.done, 0x104, some 10, 0xFFFF80FF) := by
  decide
theorem test_lw_misaligned :
    after 0x0012A503 (testState 0x100 [(5, 0x200)] loadBytes) 10 = (.done, 0x104, some 10, 0x7F123480) := by decide
theorem test_lw_outside :
    after 0x0002A503 (testState 0x100 [(5, 0xFFD), (10, 0x55)] []) 10 = (.fault .outOfBounds, 0x100, none, 0x55) := by decide
theorem test_lbu : after 0x0012C503 (testState 0x100 [(5, 0x200)] loadBytes) 10 = (.done, 0x104, some 10, 0x80) := by decide
theorem test_lhu : after 0x0002D503 (testState 0x100 [(5, 0x200)] loadBytes) 10 = (.done, 0x104, some 10, 0x80FF) := by decide

/-- The bytes 0x2FF to 0x304 after a store, 0xEE before (section 2.6). -/
def storedBytes (w : Word) : List Byte :=
  let s := testState 0x100 [(5, 0x300), (6, 0xA1B2C3D4)]
    [(0x2FF, 0xEE), (0x300, 0xEE), (0x301, 0xEE), (0x302, 0xEE), (0x303, 0xEE), (0x304, 0xEE)]
  (List.range 6).map (fun k => (command (.execute w) s).1.mem.byteAt (0x2FF + k))

theorem test_sb : storedBytes 0x00628023 = [0xEE, 0xD4, 0xEE, 0xEE, 0xEE, 0xEE] := by decide
theorem test_sh_misaligned : storedBytes 0xFE629FA3 = [0xD4, 0xC3, 0xEE, 0xEE, 0xEE, 0xEE] := by decide
theorem test_sw : storedBytes 0x0062A023 = [0xEE, 0xD4, 0xC3, 0xB2, 0xA1, 0xEE] := by decide
theorem test_sw_outside : after 0x0062A023 (operands 0xFFD 0xA1B2C3D4) 6 = (.fault .outOfBounds, 0x100, none, 0xA1B2C3D4) := by
  decide
theorem test_addi : after 0xFFF28513 (operands 0x10 0) 10 = (.done, 0x104, some 10, 0xF) := by decide
theorem test_slti : after 0x8002A513 (operands 0x80000000 0) 10 = (.done, 0x104, some 10, 1) := by decide
theorem test_sltiu : after 0xFFF2B513 (operands 0xFFFFFFFF 0) 10 = (.done, 0x104, some 10, 0) := by decide
theorem test_xori : after 0xFFF2C513 (operands 0x12345678 0) 10 = (.done, 0x104, some 10, 0xEDCBA987) := by decide
theorem test_ori : after 0x8002E513 (operands 0x10 0) 10 = (.done, 0x104, some 10, 0xFFFFF810) := by decide
theorem test_andi : after 0x8002F513 (operands 0xFFFFFFF0 0) 10 = (.done, 0x104, some 10, 0xFFFFF800) := by decide
theorem test_slli_amount_63 : after 0x03F29513 (operands 1 0) 10 = (.done, 0x104, some 10, 0x80000000) := by decide
theorem test_srli_of_srai_word : after 0x4042D513 (operands 0x80000000 0) 10 = (.done, 0x104, some 10, 0x08000000) := by decide
theorem test_add : after 0x00628533 (operands 0xFFFFFFFF 1) 10 = (.done, 0x104, some 10, 0) := by decide
theorem test_sub : after 0x40628533 (operands 3 7) 10 = (.done, 0x104, some 10, 0xFFFFFFFC) := by decide
theorem test_sll : after 0x00629533 (operands 0x80000001 0x21) 10 = (.done, 0x104, some 10, 2) := by decide
theorem test_slt : after 0x0062A533 (operands 0x80000000 0xFFFFFFFF) 10 = (.done, 0x104, some 10, 1) := by decide
theorem test_sltu : after 0x0062B533 (operands 0xFFFFFFFF 1) 10 = (.done, 0x104, some 10, 0) := by decide
theorem test_xor : after 0x0062C533 (operands 0xF0F0F0F0 0x0FF00FF4) 10 = (.done, 0x104, some 10, 0xFF00FF04) := by decide
theorem test_srl : after 0x0062D533 (operands 0xF0F0F0F0 0x0FF00FF4) 10 = (.done, 0x104, some 10, 0x00000F0F) := by decide
theorem test_sra : after 0x4062D533 (operands 0xF0F0F0F0 0x0FF00FF4) 10 = (.done, 0x104, some 10, 0xFFFFFF0F) := by decide
theorem test_or : after 0x0062E533 (operands 0xF0F0F0F0 0x0FF00FF4) 10 = (.done, 0x104, some 10, 0xFFF0FFF4) := by decide
theorem test_and : after 0x0062F533 (operands 0xF0F0F0F0 0x0FF00FF4) 10 = (.done, 0x104, some 10, 0x00F000F0) := by decide
theorem test_malformed_leaves_registers :
    after 0x02628533 (testState 0x100 [(5, 7), (6, 3), (10, 0x55)] []) 10
      = (.fault .malformedInstruction, 0x100, none, 0x55) := by decide

/-! ## Fetch, faults, ports (sections 2.9 and 2.11) -/

theorem test_step_misaligned_fetch :
    let q := command .step (testState 0x102 [] [(0x102, 0x13), (0x103, 0x05), (0x104, 0x50)])
    (q.2, q.1.pc, q.1.readReg 10) = (.done, 0x106, 5) := by decide
theorem test_step_ends_at_the_end :
    let q := command .step (testState 0xFFC [] [(0xFFC, 0x13)])
    (q.2, q.1.pc, q.1.dirty) = (.done, 0x1000, some 0) := by decide
theorem test_step_straddles_the_end :
    let q := command .step (testState 0xFFD [] [])
    (q.2, q.1.pc, q.1.dirty) = (.fault .outOfBounds, 0xFFD, none) := by decide
theorem test_whole_address_space :
    after 0x0002A503 (State.reset.writeReg 5 0xFFFFFFFC) 10 = (.done, 4, some 10, 0)
    ∧ after 0x0002A503 (State.reset.writeReg 5 0xFFFFFFFD) 10 = (.fault .outOfBounds, 0, none, 0) := by decide
theorem test_reset_command :
    let q := (command .reset (testState 0x1234 [(5, 0xDEADBEEF), (31, 1)] [(0x10, 0xAA)])).1
    (q.readReg 5, q.readReg 31, q.dirty, q.pc, q.mem.byteAt 0x10) = (0, 0, none, 0x1234, 0xAA) := by decide
theorem test_dirty_port : dirtyPort none = 0b000000 ∧ dirtyPort (some 0) = 0b100000 ∧ dirtyPort (some 10) = 0b101010
    ∧ dirtyPort (some 31) = 0b111111 := by decide
theorem test_reply_codes : replyCode .done = some 0 ∧ replyCode (.fault .malformedInstruction) = some 1
    ∧ replyCode (.fault .outOfBounds) = some 2 := by decide
theorem test_host_writes :
    let s := hostMove (.writeByte 0x1000 1) (hostMove (.writeByte 0xFFF 0x41) (hostMove (.writeReg 0 7) (operands 1 2)))
    (s.readReg 0, s.mem.byteAt 0xFFF, s.mem.byteAt 0x1000, s.dirty) = (0, 0x41, 0, some 7) := by decide
theorem test_first_step_after_load :
    (match step (State.reset.withFetchWord 32 0x123452B7) with
      | .next t => some (t.pc, t.dirty, t.readReg 5)
      | _ => none) = some (4, some 5, 0x12345000) := by decide
theorem test_disassemble : disassemble 0x00208333 = "add t1, ra, sp" ∧ disassemble 0x800D8967 = "jalr s2, -2048(s11)"
    ∧ disassemble 0x00000037 = "lui zero, 0x0" ∧ disassemble 0x40629533 = "bad instruction" := by decide

/-! ## Witnesses: a concrete case for the hypotheses of each statement that has any, at the boundary values -/

theorem witness_FieldRoundTripOfEveryFormat :
    immFits12 0xFFFFF800 = true ∧ immFits12 2047 = true ∧ immFitsB 0xFFFFF000 = true
    ∧ immFitsB 4094 = true ∧ immFitsU 0xFFFFF000 = true ∧ immFitsJ 0xFFF00000 = true ∧ immFitsJ 1048574 = true := by decide
theorem witness_DecodeOfEncodeIsTheInstruction :
    (Instr.jal 31 0xFFF00000).wf = true ∧ (Instr.sra 31 31 31).wf = true ∧ (Instr.srli 1 2 0x404).wf = true := by decide
theorem witness_EncodeOfDecodeIsTheWord :
    decode 0xFFFFFFEF = .ok (.jal 31 0xFFFFFFFE) ∧ decode 0x41FFDFB3 = .ok (.sra 31 31 31) := by decide
theorem witness_OpcodeTableRowsSelectByTheirMasks :
    ⟨"sra", 0xFE00707F, 0x40005033⟩ ∈ opcodeTable ∧ 0x4084D533#32 &&& 0xFE00707F = 0x40005033 := by decide
theorem witness_MalformedExactlyOnTheSevenConditions :
    (opcodeOf 0x00000073 ∉ groupOpcodes ∧ selectors 0x004110E7 = (0x67, 1, 0) ∧ selectors 0x0062B863 = (0x63, 3, 0)
      ∧ selectors 0x0002F503 = (0x03, 7, 0) ∧ selectors 0x0062F023 = (0x23, 7, 0) ∧ selectors 0x02628533 = (0x33, 0, 1)
      ∧ selectors 0x4062F533 = (0x33, 7, 0x20)) ∧ IllegalEncoding 0x4062F533 := by decide
theorem witness_LuiLoadsTheUpperImmediate : opcodeOf 0xFFFFF2B7 = 0x37#7 := by decide
theorem witness_AuipcAddsTheUpperImmediateToPc : opcodeOf 0x80000517 = 0x17#7 := by decide
theorem witness_JalLinksAndJumpsRelative : opcodeOf 0x800000EF = 0x6F#7 := by decide
theorem witness_JalrLinksAndJumpsUnmasked : opcodeOf 0x004100E7 = 0x67#7 ∧ funct3Of 0x004100E7 = 0
    ∧ opcodeOf 0x004170E7 = 0x67#7 ∧ funct3Of 0x004170E7 ≠ 0 := by decide

theorem witness_BranchWords :
    ([0x00628863, 0x00629863, 0x0062C863, 0x0062D863, 0x0062E863, 0x0062F863] : List Word).map selectors
      = [(0x63, 0, 0), (0x63, 1, 0), (0x63, 4, 0), (0x63, 5, 0), (0x63, 6, 0), (0x63, 7, 0)] := by rfl
theorem witness_LoadWords :
    ([0x00028503, 0x00029503, 0x0002A503, 0x0002C503, 0x0002D503] : List Word).map selectors
      = [(0x03, 0, 0), (0x03, 1, 0), (0x03, 2, 0), (0x03, 4, 0), (0x03, 5, 0)] := by rfl
theorem witness_StoreWords : ([0x00628023, 0x00629023, 0x0062A023] : List Word).map selectors
    = [(0x23, 0, 0), (0x23, 1, 0), (0x23, 2, 0)] := by rfl
theorem witness_OpImmWords :
    ([0x00528513, 0x00529513, 0x0052A513, 0x0052B513, 0x0052C513, 0x0052D513, 0x0052E513, 0x0052F513] : List Word).map selectors
      = [(0x13, 0, 0), (0x13, 1, 0), (0x13, 2, 0), (0x13, 3, 0), (0x13, 4, 0), (0x13, 5, 0), (0x13, 6, 0), (0x13, 7, 0)] := by
  rfl
theorem witness_OpWords :
    ([0x00628533, 0x40628533, 0x00629533, 0x0062A533, 0x0062B533] : List Word).map selectors
      = [(0x33, 0, 0), (0x33, 0, 0x20), (0x33, 1, 0), (0x33, 2, 0), (0x33, 3, 0)]
    ∧ ([0x0062C533, 0x0062D533, 0x4062D533, 0x0062E533, 0x0062F533] : List Word).map selectors
      = [(0x33, 4, 0), (0x33, 5, 0), (0x33, 5, 0x20), (0x33, 6, 0), (0x33, 7, 0)] := ⟨rfl, rfl⟩
theorem witness_SraiEncodingShiftsLogically :
    opcodeOf 0x41F2D513 = 0x13#7 ∧ funct3Of 0x41F2D513 = 0b101 ∧ funct7Of 0x41F2D513 = 0b0100000 := by decide

/-- Loads and stores: the last access inside the buffer and the first outside, for each width. -/
theorem witness_AccessesAtTheEnd : let s := operands 0xFFC 0
    (effectiveAddress s 5 3).toNat + 1 ≤ s.mem.size ∧ s.mem.size < (effectiveAddress s 5 4).toNat + 1
    ∧ (effectiveAddress s 5 2).toNat + 2 ≤ s.mem.size ∧ s.mem.size < (effectiveAddress s 5 3).toNat + 2
    ∧ (effectiveAddress s 5 0).toNat + 4 ≤ s.mem.size ∧ s.mem.size < (effectiveAddress s 5 1).toNat + 4 := by decide
theorem witness_OpcodesOutsideTheNineGroupsFault : opcodeOf 0x0000100F = 0x0F#7 ∧ opcodeOf 0x00100073 = 0x73#7
    ∧ opcodeOf 0x0062A52F ∉ groupOpcodes ∧ opcodeOf 0 ∉ groupOpcodes ∧ opcodeOf 0xFFFFFFFF ∉ groupOpcodes := by decide

/-- A state whose fetch at the last possible address decodes; one whose fetch is outside. -/
def lastFetch : State := testState 0xFFC [] [(0xFFC, 0x13), (0xFFD, 0x05), (0xFFE, 0x50)]
def outsideFetch : State := testState 0xFFD [] []

theorem witness_StepRunsTheDecodedInstruction :
    lastFetch.pc.toNat + 4 ≤ lastFetch.mem.size ∧ decode (wordAtPc lastFetch) = .ok (.addi 10 0 5)
    ∧ decode 0x00628533 = .ok (.add 10 5 6) := by decide
/-- `execute` fetches nothing: a state whose `pc` is outside the buffer runs the caller's word (R91). -/
theorem test_execute_with_pc_outside :
    after 0x00628533 (testState 0xFFFFFFFC [(5, 3), (6, 4)] []) 10 = (.done, 0, some 10, 7)
    ∧ (command .step (testState 0xFFFFFFFC [] [])).2 = .fault .outOfBounds := by decide
theorem witness_FetchReadsFourBytesOrFaults : outsideFetch.mem.size < outsideFetch.pc.toNat + 4 := by decide
theorem witness_FaultCausesAreComplete : IllegalEncoding (wordAtPc (operands 0 0))
    ∧ dataAccess (.lw 10 5 0) (operands 0xFFD 0) = some (0xFFD, 4) ∧ OutsideBuffer (operands 0xFFD 0) 0xFFD 4 := by decide
theorem witness_FaultedCommandLeavesTheStateUnchanged :
    (command (.execute 0x73) (operands 0 0)).2 = .fault .malformedInstruction
    ∧ (command (.execute 0x0002A503) (operands 0xFFD 0)).2 = .fault .outOfBounds := by decide
theorem witness_RepeatedStepFaultsAgainInTheSameWay : (command .step outsideFetch).2 = .fault .outOfBounds
    ∧ (command .step (operands 0 0)).2 = .fault .malformedInstruction := by decide

theorem witness_DirtyMarkerIsTheDestinationAndNeverRead :
    (command (.execute 0x00628863) (operands 1 2)).2 = .done ∧ decode 0x00628863 = .ok (.beq 5 6 16)
    ∧ (command .step lastFetch).2 = .done ∧ (command .step outsideFetch).2 = .fault .outOfBounds
    ∧ (command (.execute 0x73) (operands 1 2)).2 = .fault .malformedInstruction ∧ (operands 1 2).dirty = some 7 := by decide
/-- For `DirtyMarkerIsTheDestinationAndNeverRead` and `ProgramCounterFollowsTheGroup`: instructions of each kind answer a next
state. -/
theorem witness_ExecAnswersNext : (∃ t, exec (.addi 10 0 5) (operands 1 2) = .next t)
    ∧ (∃ t, exec (.lui 0 0x1000) (operands 1 2) = .next t) ∧ (∃ t, exec (.jal 1 8) (operands 1 2) = .next t)
    ∧ (∃ t, exec (.jalr 1 5 8) (operands 1 2) = .next t) ∧ (∃ t, exec (.bge 6 5 8) (operands 1 2) = .next t)
    ∧ (∃ t, exec (.lw 10 5 0) (operands 0xFFC 2) = .next t) ∧ ∃ t, exec (.sw 5 6 0) (operands 0xFFC 2) = .next t :=
  ⟨⟨_, rfl⟩, ⟨_, rfl⟩, ⟨_, rfl⟩, ⟨_, rfl⟩, ⟨_, rfl⟩, ⟨_, rfl⟩, ⟨_, rfl⟩⟩
theorem witness_OnlyTheMarkedRegisterMayChange :
    ∃ t, step lastFetch = .next t ∧ t.readReg 10 ≠ lastFetch.readReg 10 := ⟨_, rfl, by decide⟩
theorem witness_OnlyStoresChangeBytesInsideTheirAccess :
    ∃ t, exec (.sb 5 6 0) (operands 0xFFF 2) = .next t ∧ t.mem.byteAt 0xFFF ≠ (operands 0xFFF 2).mem.byteAt 0xFFF :=
  ⟨_, rfl, by decide⟩
theorem witness_InstructionsReadOnlyTheirSources : (operands 1 2).pc = (operands 1 3).pc
    ∧ (operands 1 2).mem = (operands 1 3).mem
    ∧ (∀ r ∈ sourceRegisters (.addi 6 5 1), (operands 1 2).readReg r = (operands 1 3).readReg r)
    ∧ operands 1 2 ≠ operands 1 3 := by decide
theorem witness_StepKeepsTheInvariant : lastFetch.Inv ∧ ∃ t, step lastFetch = .next t := ⟨by decide, ⟨_, rfl⟩⟩
theorem witness_SessionsKeepTheInvariant : (testState 0x100 [(5, 1)] loadBytes).Inv := by decide
theorem witness_NarrowReadsSeeTheBytesOfAStoredWord :
    (operands 0xFFC 0xA1B2C3D4).Inv ∧ ∃ t, exec (.sw 5 6 0) (operands 0xFFC 0xA1B2C3D4) = .next t := ⟨by decide, ⟨_, rfl⟩⟩
/-- Each store at the last bytes of the buffer, and the last fetch in range; a SW that covers part of the fetched word; the
host's byte at the last address. -/
theorem witness_StoresAreSeenByTheNextFetch :
    (∃ t w, exec (.sb 5 6 0) (operands 0xFFF 0xA1B2C3D4) = .next t ∧ (t.setPc 0xFFC).fetch = some w ∧ w = 0xD4000000)
    ∧ (∃ t w, exec (.sh 5 6 0) (operands 0xFFE 0xA1B2C3D4) = .next t ∧ (t.setPc 0xFFC).fetch = some w ∧ w = 0xC3D40000)
    ∧ (∃ t w, exec (.sw 5 6 0) (operands 0xFFC 0xA1B2C3D4) = .next t ∧ (t.setPc 0xFFC).fetch = some w ∧ w = 0xA1B2C3D4)
    ∧ (∃ t w, exec (.sw 5 6 0) (operands 0x106 0xA1B2C3D4) = .next t ∧ t.fetch = some w ∧ w = 0xC3D40000)
    ∧ 0xFFF < (operands 0 0).mem.size
    ∧ ((hostMove (.writeByte 0xFFF 0x41) (operands 0 0)).setPc 0xFFC).fetch = some 0x41000000 :=
  ⟨⟨_, _, rfl, rfl, by decide⟩, ⟨_, _, rfl, rfl, by decide⟩, ⟨_, _, rfl, rfl, by decide⟩, ⟨_, _, rfl, rfl, by decide⟩,
    by decide, by decide⟩
theorem witness_SelfLoopChangesOnlyTheMarker : (testState 0x100 [] [(0x100, 0x6F)]).fetch = some 0x0000006F := by decide
theorem witness_MemoryAccessesAreCheckedAndLittleEndian :
    (∃ v, (operands 0 0).mem.read 0xFFC .word = some v) ∧ (∃ m, (operands 0 0).mem.write 0xFFE .half 7 = some m)
    ∧ (operands 0 0).mem.read 0xFFD .word = none := ⟨⟨_, rfl⟩, ⟨_, rfl⟩, rfl⟩
theorem witness_MarkerIsSetForRegisterZeroAndEncodedInSixBits :
    (Instr.add 0 5 6).dest = some 0 ∧ ∃ t, exec (.add 0 5 6) (operands 1 2) = .next t := ⟨rfl, ⟨_, rfl⟩⟩
theorem witness_RegisterZeroIsHardwiredToZero :
    (Instr.lui 0 0x1000).dest = some 0 ∧ ∃ t, exec (.lui 0 0x1000) (operands 1 2) = .next t := ⟨rfl, ⟨_, rfl⟩⟩
theorem witness_PlacedWordIsTheNextFetched :
    State.reset.pc.toNat + 4 ≤ State.reset.mem.size ∧ lastFetch.pc.toNat + 4 ≤ lastFetch.mem.size := by decide
theorem witness_HostMovesWriteOneThing : (31 : RegIdx) ≠ 0 ∧ (3 : RegIdx) ≠ 31 ∧ 0xFFF < (operands 0 0).mem.size
    ∧ (operands 0 0).mem.size ≤ 0x1000 := by decide
/-- A word of every layout; the words of the other rows are in `witness_BranchWords` to `witness_OpWords`. -/
theorem witness_DisassembledTextFollowsTheLayouts : IllegalEncoding 0x40629533
    ∧ opcodeOf 0x123452B7 = 0x37#7 ∧ opcodeOf 0x00001517 = 0x17#7 ∧ opcodeOf 0x008000EF = 0x6F#7
    ∧ selectors 0x004100E7 = (0x67, 0, 0) ∧ selectors 0x00628863 = (0x63, 0, 0) ∧ selectors 0x0002D503 = (0x03, 5, 0)
    ∧ selectors 0x0062A023 = (0x23, 2, 0) ∧ selectors 0x0052F513 = (0x13, 7, 0) ∧ selectors 0x4062D533 = (0x33, 5, 0x20) := by
  decide
/-- R192: `srli` with the immediates 1028 and 4 executes alike and prints differently. -/
theorem witness_DisassemblerIsInjectiveOnInstructions :
    (0x4042D513 : Word) ≠ 0x0042D513 ∧ disassemble 0x4042D513 ≠ "bad instruction" := by decide

end Sys2Proof.Tests
end

/-! Proofs of the statements of spec/00_scope.md: what the commands answer, what every step, command and host move keeps, and
what the ports show. -/

namespace Sys2Proof.Machine

/-! ## What an instruction, a step and a command can answer -/

/-- An instruction completes or is out of bounds; it has no third answer (R200). -/
theorem exec_next_or_outOfBounds (i : Instr) (s : State) : (∃ t, exec i s = .next t) ∨ exec i s = .fault .outOfBounds := by
  cases exec_end i s with
  | writes _ _ _ _ h => exact .inl ⟨_, h⟩
  | nothing _ _ h => exact .inl ⟨_, h⟩
  | stores _ _ _ _ _ _ _ h => exact .inl ⟨_, h⟩
  | outside _ h => exact .inr h

theorem exec_ne_refused (i : Instr) (s : State) (r : Refusal) : exec i s ≠ .refused r := by
  rcases exec_next_or_outOfBounds i s with ⟨t, h⟩ | h <;> simp [h]

theorem step_ne_refused (s : State) (r : Refusal) : step s ≠ .refused r := by
  rcases step_cases s with ⟨-, h⟩ | ⟨_, _, -, -, h⟩ | ⟨_, i, -, -, h⟩
  · simp [h]
  · simp [h]
  · rw [h]; exact exec_ne_refused i _ r

theorem executeWord_ne_refused (w : Word) (s : State) (r : Refusal) : executeWord w s ≠ .refused r := by
  rcases executeWord_cases w s with ⟨_, -, h⟩ | ⟨i, -, h⟩
  · simp [h]
  · rw [h]; exact exec_ne_refused i _ r

/-- The reply to an outcome that is no refusal is one of the three responses of R12. -/
theorem settle_reply (s : State) {o : Host.Outcome State Fault Refusal} (ho : ∀ r, o ≠ .refused r) :
    (settle s o).2 = .done ∨ (settle s o).2 = .fault .malformedInstruction ∨ (settle s o).2 = .fault .outOfBounds := by
  cases o with
  | next t => exact .inl rfl
  | fault f =>
    cases f with
    | malformedInstruction => exact .inr (.inl rfl)
    | outOfBounds => exact .inr (.inr rfl)
  | refused r => exact absurd rfl (ho r)

theorem settle_reply_ne_refused (s : State) {o : Host.Outcome State Fault Refusal} (ho : ∀ r, o ≠ .refused r) (r : Refusal) :
    (settle s o).2 ≠ .refused r := by
  rcases settle_reply s ho with h | h | h <;> simp [h]

/-- Every command has an answer of the spec's own (R12, log 15). -/
theorem command_reply_ne_refused (c : Command) (s : State) (r : Refusal) : (command c s).2 ≠ .refused r := by
  cases c with
  | reset => exact Reply.noConfusion
  | step => exact settle_reply_ne_refused s (step_ne_refused s) r
  | execute w => exact settle_reply_ne_refused s (executeWord_ne_refused w s) r
  | disassemble w => exact Reply.noConfusion

/-- Settles O36: no step is refused, so the reply to one is Done or one of the two faults. -/
theorem commandsAnswerDoneOrOneOfTwoFaults : Obligations.CommandsAnswerDoneOrOneOfTwoFaults := fun s =>
  ⟨settle_reply s (step_ne_refused s), fun w => settle_reply s (executeWord_ne_refused w s), fun _ => Reply.noConfusion,
    fun w => ⟨disassemble w, rfl⟩, fun c r => command_reply_ne_refused c s r, step_ne_refused s⟩

/-! ## What keeps the invariant -/

/-- The invariant speaks of the buffer and of entry 0 of the register file only. -/
theorem inv_of_mem_of_entry_zero {s t : State} (hs : s.Inv) (hmem : t.mem = s.mem)
    (hentry : t.regs[(0 : RegIdx)] = s.regs[(0 : RegIdx)]) : t.Inv :=
  ⟨hmem ▸ hs.1, hentry.trans hs.2⟩

theorem writeReg_inv {s : State} (i : RegIdx) (v : Word) (hs : s.Inv) : (s.writeReg i v).Inv :=
  inv_of_mem_of_entry_zero hs (writeReg_mem s i v) (writeReg_entry_zero s i v)

theorem clearDirty_inv {s : State} (hs : s.Inv) : s.clearDirty.Inv := inv_of_mem_of_entry_zero hs rfl rfl

theorem setPc_inv {s : State} (t : Word) (hs : s.Inv) : (s.setPc t).Inv := inv_of_mem_of_entry_zero hs rfl rfl

theorem markDirty_inv {s : State} (i : RegIdx) (hs : s.Inv) : (s.markDirty i).Inv := inv_of_mem_of_entry_zero hs rfl rfl

/-- A completed instruction keeps the invariant: its register write spares entry 0, its store keeps the canonical form. -/
theorem exec_inv {i : Instr} {s t : State} (hs : s.Inv) (h : exec i s = .next t) : t.Inv := by
  cases exec_end i s with
  | writes rd v next _ ho =>
    obtain rfl := Host.Outcome.next.inj (ho.symm.trans h)
    exact setPc_inv next (markDirty_inv rd (writeReg_inv rd v hs))
  | nothing next _ ho =>
    obtain rfl := Host.Outcome.next.inj (ho.symm.trans h)
    exact setPc_inv next (clearDirty_inv hs)
  | stores a n v m _ _ hm ho =>
    obtain rfl := Host.Outcome.next.inj (ho.symm.trans h)
    obtain ⟨-, -, -, hwf⟩ := write_spec hm
    exact setPc_inv _ (clearDirty_inv ⟨hwf hs.1, hs.2⟩)
  | outside _ ho => simp [ho] at h

theorem step_inv {s t : State} (hs : s.Inv) (h : step s = .next t) : t.Inv := by
  rcases step_cases s with ⟨-, ho⟩ | ⟨_, _, -, -, ho⟩ | ⟨_, i, -, -, ho⟩
  · simp [ho] at h
  · simp [ho] at h
  · exact exec_inv (clearDirty_inv hs) (ho ▸ h)

theorem executeWord_inv {w : Word} {s t : State} (hs : s.Inv) (h : executeWord w s = .next t) : t.Inv := by
  rcases executeWord_cases w s with ⟨_, -, ho⟩ | ⟨i, -, ho⟩
  · simp [ho] at h
  · exact exec_inv (clearDirty_inv hs) (ho ▸ h)

/-- Settles O45: a completed step is a completed instruction run on the state with the marker cleared. -/
theorem stepKeepsTheInvariant : Obligations.StepKeepsTheInvariant := fun _ _ => step_inv

/-- Settles O46. -/
theorem resetMeetsTheInvariant : Obligations.ResetMeetsTheInvariant :=
  ⟨(memory_wf_iff _).2 ⟨le_refl _, List.Pairwise.nil, fun _ hc => absurd hc List.not_mem_nil⟩, rfl⟩

/-- A command keeps the invariant when each state its outcome goes on to does: a fault changes the marker only (R203). -/
theorem settle_inv {s : State} {o : Host.Outcome State Fault Refusal} (hs : s.Inv) (ho : ∀ t, o = .next t → t.Inv) :
    (settle s o).1.Inv := by
  cases o with
  | next t => exact ho t rfl
  | fault f => exact clearDirty_inv hs
  | refused r => exact hs

theorem command_inv {s : State} (c : Command) (hs : s.Inv) : (command c s).1.Inv := by
  cases c with
  | reset => exact ⟨hs.1, rfl⟩
  | step => exact settle_inv hs fun _ => step_inv hs
  | execute w => exact settle_inv hs fun _ => executeWord_inv hs
  | disassemble w => exact hs

/-- A host write of a byte inside the buffer replaces that byte (R52). -/
theorem hostMove_writeByte_inside {s : State} {a : Nat} (b : Byte) (ha : a < s.mem.size) :
    hostMove (.writeByte a b) s = { s with mem := s.mem.setByte a b } := if_pos ha

/-- A host write outside the buffer changes nothing (log 6). -/
theorem hostMove_writeByte_outside {s : State} {a : Nat} (b : Byte) (ha : s.mem.size ≤ a) :
    hostMove (.writeByte a b) s = s := if_neg (Nat.not_lt.2 ha)

theorem hostMove_inv {s : State} (m : HostMove) (hs : s.Inv) : (hostMove m s).Inv := by
  cases m with
  | writePc v => exact setPc_inv v hs
  | writeReg i v => exact writeReg_inv i v hs
  | writeByte a b =>
    rcases Nat.lt_or_ge a s.mem.size with ha | ha
    · rw [hostMove_writeByte_inside b ha]; exact ⟨setByte_wf b hs.1 ha, hs.2⟩
    · rwa [hostMove_writeByte_outside b ha]

theorem session_inv (acts : List HostAction) {s : State} (hs : s.Inv) : (session acts s).1.Inv := by
  induction acts generalizing s with
  | nil => exact hs
  | cons act rest ih =>
    cases act with
    | command c => exact ih (command_inv c hs)
    | move m => exact ih (hostMove_inv m hs)

/-- No command of a session is refused, whatever the state it starts from. -/
theorem refused_notMem_session (acts : List HostAction) (s : State) (r : Refusal) : .refused r ∉ (session acts s).2 := by
  induction acts generalizing s with
  | nil => exact List.not_mem_nil
  | cons act rest ih =>
    cases act with
    | command c => exact List.not_mem_cons_of_ne_of_not_mem (command_reply_ne_refused c s r).symm (ih _)
    | move m => exact ih _

/-- Settles O47, by induction on the session's actions. -/
theorem sessionsKeepTheInvariant : Obligations.SessionsKeepTheInvariant := fun acts s hs =>
  ⟨session_inv acts hs, refused_notMem_session acts s⟩

/-! ## The ports -/

/-- A host write of a register other than 0: its value, and its frame (R14). -/
theorem hostMove_writeReg_spec (s : State) {r : RegIdx} (v : Word) (hr : r ≠ 0) :
    (hostMove (.writeReg r v) s).readReg r = v
    ∧ (∀ q, q ≠ r → (hostMove (.writeReg r v) s).readReg q = s.readReg q)
    ∧ (hostMove (.writeReg r v) s).pc = s.pc
    ∧ (hostMove (.writeReg r v) s).dirty = s.dirty
    ∧ (hostMove (.writeReg r v) s).mem = s.mem := by
  refine ⟨?_, fun q hq => ?_, writeReg_pc s r v, writeReg_dirty s r v, writeReg_mem s r v⟩
  · exact (readReg_writeReg s r r v).trans (if_pos ⟨rfl, hr⟩)
  · exact (readReg_writeReg s r q v).trans (if_neg fun h => hq h.1)

/-- Settles O55: each move is one update of the state, with the reading rule of that update. -/
theorem hostMovesWriteOneThing : Obligations.HostMovesWriteOneThing := by
  refine ⟨fun s v => ⟨rfl, rfl, fun r hr => hostMove_writeReg_spec s v hr⟩, fun s a b ha => ?_,
    fun s a b ha => hostMove_writeByte_outside b ha⟩
  rw [hostMove_writeByte_inside b ha]
  refine ⟨?_, fun x hx => ?_, setByte_size s.mem a b, fun _ => rfl, rfl, rfl⟩
  · exact (byteAt_setByte s.mem a a b).trans (if_pos rfl)
  · exact (byteAt_setByte s.mem a x b).trans (if_neg hx)

/-- Place `r` of the observed registers shows `x[r]` (R13). -/
theorem observe_getElem? (s : State) (r : RegIdx) : (observe s).x[r.val]? = some (s.readReg r) := by
  simp [observe]

/-- Settles O57: the register that reads as 0 in every state stands at place 0. -/
theorem observationShowsRegistersPcAndMarker : Obligations.ObservationShowsRegistersPcAndMarker := fun s =>
  ⟨by simp [observe], observe_getElem? s, (observe_getElem? s 0).trans (congrArg some (readReg_zero s)), rfl, rfl⟩

end Sys2Proof.Machine

/-! Proofs of the statements of spec/10_state.md: register 0, the dirty marker, the one register an instruction may change, and
what an instruction reads. -/

namespace Sys2Proof.Machine

/-! ## The register file and the marker after an instruction -/

/-- A write to register 0 stores nothing (R21). -/
@[simp] theorem writeReg_zero (s : State) (v : Word) : s.writeReg 0 v = s := if_pos rfl

/-- A completed instruction writes one value to its destination and marks it, or has no destination, keeps the register file
and leaves no marker (R95). -/
theorem exec_next_dest {i : Instr} {s t : State} (h : exec i s = .next t) :
    (∃ rd v, i.dest = some rd ∧ t.dirty = some rd ∧ t.regs = (s.writeReg rd v).regs)
    ∨ (i.dest = none ∧ t.dirty = none ∧ t.regs = s.regs) := by
  cases exec_end i s with
  | writes rd v next hd ho =>
    obtain rfl := Host.Outcome.next.inj (ho.symm.trans h)
    exact .inl ⟨rd, v, hd, rfl, rfl⟩
  | nothing next hd ho =>
    obtain rfl := Host.Outcome.next.inj (ho.symm.trans h)
    exact .inr ⟨hd, rfl, rfl⟩
  | stores a n v m hd _ _ ho =>
    obtain rfl := Host.Outcome.next.inj (ho.symm.trans h)
    exact .inr ⟨hd, rfl, rfl⟩
  | outside _ ho => simp [ho] at h

/-- The marker after a completed instruction is its destination (R27, R95). -/
theorem exec_next_dirty {i : Instr} {s t : State} (h : exec i s = .next t) : t.dirty = i.dest := by
  rcases exec_next_dest h with ⟨_, _, hd, hm, -⟩ | ⟨hd, hm, -⟩ <;> exact hm.trans hd.symm

/-- An instruction with destination 0 stores nothing in the register file (R21). -/
theorem exec_next_regs_of_dest_zero {i : Instr} {s t : State} (h : exec i s = .next t) (hz : i.dest = some 0) :
    t.regs = s.regs := by
  rcases exec_next_dest h with ⟨rd, v, hd, -, hregs⟩ | ⟨-, -, hregs⟩
  · obtain rfl : rd = 0 := Option.some.inj (hd.symm.trans hz)
    rw [hregs, writeReg_zero]
  · exact hregs

/-- A register that reads differently after an instruction is the marked one, and not register 0. -/
theorem exec_next_marks_changed {i : Instr} {s t : State} (h : exec i s = .next t) {r : RegIdx}
    (hr : t.readReg r ≠ s.readReg r) : t.dirty = some r ∧ r ≠ 0 := by
  rcases exec_next_dest h with ⟨rd, v, -, hm, hregs⟩ | ⟨-, -, hregs⟩
  · rw [readReg_congr hregs, readReg_writeReg] at hr
    obtain ⟨rfl, hne⟩ : r = rd ∧ rd ≠ 0 := by_contra fun hn => hr (if_neg hn)
    exact ⟨hm, hne⟩
  · exact absurd (readReg_congr hregs r) hr

/-! ## The marker after a command -/

/-- A command that answers Done leaves the state its outcome went on to. -/
theorem settle_done {s : State} {o : Host.Outcome State Fault Refusal} (h : (settle s o).2 = .done) :
    o = .next (settle s o).1 := by
  cases o with
  | next t => rfl
  | fault f => exact Reply.noConfusion h
  | refused r => exact Reply.noConfusion h

/-- A faulted command leaves no marker (R203). -/
theorem settle_fault_dirty {s : State} {o : Host.Outcome State Fault Refusal} {f : Fault} (h : (settle s o).2 = .fault f) :
    (settle s o).1.dirty = none := by
  cases o with
  | next t => exact Reply.noConfusion h
  | fault g => rfl
  | refused r => exact Reply.noConfusion h

theorem command_fault_dirty {c : Command} {s : State} {f : Fault} (h : (command c s).2 = .fault f) :
    (command c s).1.dirty = none := by
  cases c with
  | reset => exact Reply.noConfusion h
  | step => exact settle_fault_dirty h
  | execute w => exact settle_fault_dirty h
  | disassemble w => exact Reply.noConfusion h

/-- A step that completes ran the instruction the word at `pc` decodes to, with the marker cleared. -/
theorem exec_of_step_next {i : Instr} {s t : State} (hd : decode (wordAtPc s) = .ok i) (h : step s = .next t) :
    exec i s.clearDirty = .next t := by
  rcases step_cases s with ⟨-, ho⟩ | ⟨_, _, -, -, ho⟩ | ⟨w, j, hw, hj, ho⟩
  · simp [ho] at h
  · simp [ho] at h
  · obtain ⟨-, rfl⟩ := (fetch_eq_some_iff s w).1 hw
    obtain rfl : j = i := Except.ok.inj (hj.symm.trans hd)
    exact ho.symm.trans h

/-- Clearing the marker forgets what it was: `step` and `execute` start with it (R90, R91). -/
theorem clearDirty_withDirty (s : State) (d : Option RegIdx) : ({ s with dirty := d } : State).clearDirty = s.clearDirty := rfl

theorem step_withDirty (s : State) (d : Option RegIdx) : step { s with dirty := d } = step s := by
  simp only [step, stepOnce, clearDirty_withDirty]

theorem executeWord_withDirty (w : Word) (s : State) (d : Option RegIdx) :
    executeWord w { s with dirty := d } = executeWord w s := by
  simp only [executeWord, clearDirty_withDirty]

/-- Settles O39: a command that answers Done ran one instruction to its end, every other one cleared the marker or did nothing,
and `step` and `execute` forget the old marker first. -/
theorem dirtyMarkerIsTheDestinationAndNeverRead : Obligations.DirtyMarkerIsTheDestinationAndNeverRead := by
  refine ⟨fun i s t => exec_next_dirty, fun w i s hd hdone => ?_, fun i s hd hdone => ?_, fun c s f => command_fault_dirty,
    fun _ => rfl, fun _ _ => rfl, step_withDirty, fun s d w => executeWord_withDirty w s d⟩
  · exact exec_next_dirty ((executeWord_of_decode s hd).symm.trans (settle_done hdone))
  · exact exec_next_dirty (exec_of_step_next hd (settle_done hdone))

/-- Settles O40: register 0 reads as 0 by the reading rule, and writing it is no change. -/
theorem registerZeroIsHardwiredToZero : Obligations.RegisterZeroIsHardwiredToZero :=
  ⟨fun s => ⟨readReg_zero s, (observe_getElem? s 0).trans (congrArg some (readReg_zero s))⟩,
    fun _ _ _ => exec_next_regs_of_dest_zero, writeReg_zero⟩

/-- Settles O41: the step ran one instruction, and clearing the marker changed no register. -/
theorem onlyTheMarkedRegisterMayChange : Obligations.OnlyTheMarkedRegisterMayChange := by
  intro s t h r hr
  rcases step_cases s with ⟨-, ho⟩ | ⟨_, _, -, -, ho⟩ | ⟨_, i, -, -, ho⟩
  · simp [ho] at h
  · simp [ho] at h
  · exact exec_next_marks_changed (ho.symm.trans h) (by rwa [readReg_clearDirty])

/-- The marker on the port is 32 and the index (R28). -/
theorem dirtyPort_some_toNat (r : RegIdx) : (dirtyPort (some r)).toNat = 32 + r.val := by
  rw [dirtyPort, append_toNat]
  exact Nat.add_comm r.val 32

/-- Settles O56: destination 0 is marked like any other, and its write is no change. -/
theorem markerIsSetForRegisterZeroAndEncodedInSixBits : Obligations.MarkerIsSetForRegisterZeroAndEncodedInSixBits :=
  ⟨fun _ _ _ h hz => ⟨(exec_next_dirty h).trans hz, readReg_congr (exec_next_regs_of_dest_zero h hz)⟩, rfl,
    dirtyPort_some_toNat⟩

theorem readReg_reset (r : RegIdx) : State.reset.readReg r = 0 := by
  simp [State.readReg, State.reset]

/-- Settles O53. -/
theorem resetStateHasZeroRegistersAndNoMarker : Obligations.ResetStateHasZeroRegistersAndNoMarker :=
  ⟨readReg_reset, rfl, rfl, fun _ => rfl⟩

/-! ## What an instruction reads -/

/-- Two outcomes that do not tell apart the states they came from: the same `pc`, buffer, marker and value of the destination,
or the same fault. -/
def EndsAlike (dest : Option RegIdx) (o o' : Host.Outcome State Fault Refusal) : Prop :=
  (∃ t t', o = .next t ∧ o' = .next t' ∧ t.pc = t'.pc ∧ t.mem = t'.mem ∧ t.dirty = t'.dirty
    ∧ ∀ rd, dest = some rd → t.readReg rd = t'.readReg rd)
  ∨ ∃ f, o = .fault f ∧ o' = .fault f

section
variable {s s' : State}

theorem nextPc_congr (hpc : s.pc = s'.pc) : s.nextPc = s'.nextPc := congrArg (· + _) hpc

theorem pcRelative_congr (hpc : s.pc = s'.pc) (imm : Word) : pcRelative s imm = pcRelative s' imm := congrArg (· + imm) hpc

theorem branchNext_congr (hpc : s.pc = s'.pc) {c c' : Bool} (hc : c = c') (imm : Word) :
    branchNext s c imm = branchNext s' c' imm := by
  rw [branchNext, branchNext, hc, pcRelative_congr hpc, nextPc_congr hpc]

theorem effectiveAddress_congr {r : RegIdx} (hr : s.readReg r = s'.readReg r) (imm : Word) :
    effectiveAddress s r imm = effectiveAddress s' r imm := congrArg (· + imm) hr

theorem readReg_eq_of_pair {a b : RegIdx} (h : ∀ r ∈ [a, b], s.readReg r = s'.readReg r) :
    s.readReg a = s'.readReg a ∧ s.readReg b = s'.readReg b := by
  simpa using h

theorem load_congr (hmem : s.mem = s'.mem) {a a' : Word} (ha : a = a') (n : Width) : s.load a n = s'.load a' n := by
  rw [State.load, State.load, hmem, ha]

theorem finishWrite_alike (hmem : s.mem = s'.mem) (rd : RegIdx) {v v' next next' : Word} (hv : v = v') (hn : next = next') :
    EndsAlike (some rd) (finishWrite s rd v next) (finishWrite s' rd v' next') := by
  refine .inl ⟨_, _, rfl, rfl, hn, by simpa using hmem, rfl, fun r hr => ?_⟩
  obtain rfl := Option.some.inj hr
  by_cases hz : rd = 0 <;> simp [readReg_writeReg, hz, hv]

theorem finishNoWrite_alike (hmem : s.mem = s'.mem) {next next' : Word} (hn : next = next') :
    EndsAlike none (finishNoWrite s next) (finishNoWrite s' next') :=
  .inl ⟨_, _, rfl, rfl, hn, hmem, rfl, fun _ hr => nomatch hr⟩

variable (hpc : s.pc = s'.pc) (hmem : s.mem = s'.mem)
include hpc hmem

theorem finishAlu_alike (rd : RegIdx) {v v' : Word} (hv : v = v') :
    EndsAlike (some rd) (finishAlu s rd v) (finishAlu s' rd v') :=
  finishWrite_alike hmem rd hv (nextPc_congr hpc)

theorem finishLoad_alike (rd : RegIdx) {v v' : Option Word} (hv : v = v') :
    EndsAlike (some rd) (finishLoad s rd v) (finishLoad s' rd v') := by
  subst hv
  cases v with
  | none => exact .inr ⟨_, rfl, rfl⟩
  | some x => exact finishWrite_alike hmem rd rfl (nextPc_congr hpc)

theorem finishStore_alike {a a' v v' : Word} (n : Width) (ha : a = a') (hv : v = v') :
    EndsAlike none (finishStore s a n v) (finishStore s' a' n v') := by
  rw [finishStore, finishStore, State.store, State.store, ← hmem, ha, hv]
  cases s.mem.write a' n v' with
  | none => exact .inr ⟨_, rfl, rfl⟩
  | some m => exact finishNoWrite_alike (s := { s with mem := m }) (s' := { s' with mem := m }) rfl (nextPc_congr hpc)

/-- An instruction ends alike in two states that agree on `pc`, the buffer and the registers it reads (R20, R94). -/
theorem exec_alike (i : Instr) (hsrc : ∀ r ∈ sourceRegisters i, s.readReg r = s'.readReg r) :
    EndsAlike i.dest (exec i s) (exec i s') := by
  cases i with
  | lui rd imm => exact finishWrite_alike hmem rd rfl (nextPc_congr hpc)
  | auipc rd imm => exact finishWrite_alike hmem rd (pcRelative_congr hpc imm) (nextPc_congr hpc)
  | jal rd imm => exact finishWrite_alike hmem rd (nextPc_congr hpc) (pcRelative_congr hpc imm)
  | jalr rd rs1 imm =>
    have h1 := List.forall_mem_singleton.1 hsrc
    exact finishWrite_alike hmem rd (nextPc_congr hpc) (congrArg (· + imm) h1)
  | beq rs1 rs2 imm | bne rs1 rs2 imm | blt rs1 rs2 imm | bge rs1 rs2 imm | bltu rs1 rs2 imm | bgeu rs1 rs2 imm =>
    obtain ⟨h1, h2⟩ := readReg_eq_of_pair hsrc
    exact finishNoWrite_alike hmem (branchNext_congr hpc (by rw [h1, h2]) imm)
  | lb rd rs1 imm | lh rd rs1 imm | lbu rd rs1 imm | lhu rd rs1 imm =>
    have h1 := List.forall_mem_singleton.1 hsrc
    exact finishLoad_alike hpc hmem rd (congrArg (Option.map _) (load_congr hmem (effectiveAddress_congr h1 imm) _))
  | lw rd rs1 imm =>
    have h1 := List.forall_mem_singleton.1 hsrc
    exact finishLoad_alike hpc hmem rd (load_congr hmem (effectiveAddress_congr h1 imm) .word)
  | sb rs1 rs2 imm | sh rs1 rs2 imm | sw rs1 rs2 imm =>
    obtain ⟨h1, h2⟩ := readReg_eq_of_pair hsrc
    exact finishStore_alike hpc hmem _ (effectiveAddress_congr h1 imm) h2
  | addi rd rs1 imm | slli rd rs1 imm | slti rd rs1 imm | sltiu rd rs1 imm | xori rd rs1 imm | srli rd rs1 imm
  | ori rd rs1 imm | andi rd rs1 imm =>
    have h1 := List.forall_mem_singleton.1 hsrc
    exact finishAlu_alike hpc hmem rd (by rw [h1])
  | add rd rs1 rs2 | sub rd rs1 rs2 | sll rd rs1 rs2 | slt rd rs1 rs2 | sltu rd rs1 rs2 | xor rd rs1 rs2
  | srl rd rs1 rs2 | sra rd rs1 rs2 | or rd rs1 rs2 | and rd rs1 rs2 =>
    obtain ⟨h1, h2⟩ := readReg_eq_of_pair hsrc
    exact finishAlu_alike hpc hmem rd (by rw [h1, h2])

end

/-- Settles O44: operand by operand, an instruction takes its inputs from `pc`, the buffer and its source registers. -/
theorem instructionsReadOnlyTheirSources : Obligations.InstructionsReadOnlyTheirSources :=
  fun i _ _ hpc hmem hsrc => exec_alike hpc hmem i hsrc

end Sys2Proof.Machine

/-! Proofs of the statements of spec/20_memory.md: the range check, the byte order, what a store changes, and what a later read
or fetch sees of it. -/

namespace Sys2Proof.Machine

/-! ## What `MemRead` and `MemWrite` say of the bytes, as numbers -/

/-- All that a `MemWrite` does to reading one byte (R45). -/
theorem byteAt_write {m m' : Memory} {a : Word} {n : Width} {v : Word} (h : m.write a n v = some m') (x : Nat) :
    (m'.byteAt x).toNat = if a.toNat ≤ x ∧ x < a.toNat + widthBytes n then v.toNat / 256 ^ (x - a.toNat) % 256
      else (m.byteAt x).toNat := by
  obtain ⟨hstored, hothers, -, -⟩ := write_spec h
  split
  · next hx =>
    rw [← byteOfWord_toNat, ← hstored (x - a.toNat) (by omega), Nat.add_sub_cancel' hx.1]
  · next hx => rw [hothers x (by omega)]

/-- Byte `k` of the value stands at offset `k` (R43, R45). -/
theorem byteAt_write_offset {m m' : Memory} {a : Word} {n : Width} {v : Word} (h : m.write a n v = some m') {k : Nat}
    (hk : k < widthBytes n) : (m'.byteAt (a.toNat + k)).toNat = v.toNat / 256 ^ k % 256 := by
  rw [byteAt_write h, if_pos (by omega), Nat.add_sub_cancel_left]

/-- A read of any width at offset `k` of a written value, inside it, sees the value's bytes from `k` up (R43). -/
theorem assemble_write {m m' : Memory} {a : Word} {w : Width} {v : Word} (h : m.write a w v = some m') {k : Nat} {n : Width}
    (hk : k + widthBytes n ≤ widthBytes w) :
    (m'.assemble (a.toNat + k) n).toNat = v.toNat / 256 ^ k % 256 ^ widthBytes n := by
  refine assemble_of_bytes _ _ _ _ fun j hj => ?_
  rw [Nat.add_assoc, byteAt_write_offset h (by omega), Nat.div_div_eq_div_mul, pow_add]

/-- Settles O48: the value read is assembled from its bytes, and the bytes written assemble to the value. -/
theorem memoryAccessesAreCheckedAndLittleEndian : Obligations.MemoryAccessesAreCheckedAndLittleEndian := by
  refine fun m a n v => ⟨read_eq_none_iff m a n, write_eq_none_iff m a n v, fun x hx => ?_, fun m' hw => ?_⟩
  · obtain ⟨-, rfl⟩ := (read_eq_some_iff ..).1 hx
    exact assemble_bytes m a.toNat n
  · obtain ⟨-, hothers, hsize, -⟩ := write_spec hw
    obtain ⟨hin, -⟩ := (write_eq_some_iff ..).1 hw
    refine ⟨fun k => byteAt_write_offset hw, hothers, hsize, _, (read_eq_some_iff ..).2 ⟨hsize.symm ▸ hin, rfl⟩, ?_⟩
    simpa using assemble_write hw (k := 0) (n := n) (Nat.zero_add _).le

/-! ## What a fetch out of range leaves, and what faults -/

/-- The state after a fault differs from the one before in the marker only (R203). -/
theorem afterFault_faultLeaves (s : State) : FaultLeaves s s.afterFault :=
  ⟨fun _ => rfl, rfl, rfl, fun _ => rfl, rfl⟩

theorem step_of_fetch_eq_none {s : State} (h : s.fetch = none) : step s = .fault .outOfBounds := by
  rcases step_cases s with ⟨-, ho⟩ | ⟨w, _, hw, -, -⟩ | ⟨w, _, hw, -, -⟩
  · exact ho
  · simp [h] at hw
  · simp [h] at hw

/-- An instruction that does not complete has its data access out of range (R202). -/
theorem dataOutside_of_exec_fault {i : Instr} {s : State} {f : Fault} (h : exec i s = .fault f) : DataOutside i s := by
  cases exec_end i s with
  | writes _ _ _ _ ho => cases ho.symm.trans h
  | nothing _ _ ho => cases ho.symm.trans h
  | stores _ _ _ _ _ _ _ ho => cases ho.symm.trans h
  | outside hx _ => exact hx

/-- The data access of an instruction and its range check do not depend on the marker (R27). -/
theorem dataOutside_clearDirty (i : Instr) (s : State) : DataOutside i s.clearDirty ↔ DataOutside i s := Iff.rfl

/-- `execute` is out of bounds for a data access only: it fetches nothing (R47). -/
theorem dataOutside_of_executeWord_outOfBounds {w : Word} {s : State} (h : executeWord w s = .fault .outOfBounds) :
    ∃ i, decode w = .ok i ∧ DataOutside i s := by
  rcases executeWord_cases w s with ⟨_, -, ho⟩ | ⟨i, hi, ho⟩
  · cases ho.symm.trans h
  · exact ⟨i, hi, (dataOutside_clearDirty i s).1 (dataOutside_of_exec_fault (ho.symm.trans h))⟩

/-- Settles O33: the fetch is a four-byte read at `pc`, and the step that cannot fetch faults before anything else. -/
theorem fetchReadsFourBytesOrFaults : Obligations.FetchReadsFourBytesOrFaults := by
  refine fun s => ⟨fun hin => (fetch_eq_some_iff s _).2 ⟨hin, rfl⟩, fun hout => ?_,
    fun _ => dataOutside_of_executeWord_outOfBounds⟩
  have hstep : step s = .fault .outOfBounds := step_of_fetch_eq_none ((fetch_eq_none_iff s).2 hout)
  have hcmd : command .step s = (s.afterFault, .fault .outOfBounds) := congrArg (settle s) hstep
  rw [hcmd]
  exact ⟨hstep, rfl, afterFault_faultLeaves s⟩

/-! ## What a completed instruction does to the buffer -/

/-- A completed STORE left its `MemWrite` in the buffer (R130). -/
theorem write_of_finishStore_next {s t : State} {a : Word} {n : Width} {v : Word} (h : finishStore s a n v = .next t) :
    s.mem.write a n v = some t.mem := by
  rcases finishStore_cases s a n v with ⟨m, hm, ho⟩ | ⟨-, ho⟩
  · obtain rfl := Host.Outcome.next.inj (ho.symm.trans h)
    exact hm
  · cases ho.symm.trans h

/-- An instruction of the STORE group is one `MemWrite` at its data access (R48, R130). -/
theorem exec_of_group_store {i : Instr} (hg : i.group = .store) (s : State) :
    ∃ a n v, dataAccess i s = some (a, widthBytes n) ∧ exec i s = finishStore s a n v := by
  cases i with
  | sb => exact ⟨_, .byte, _, rfl, rfl⟩
  | sh => exact ⟨_, .half, _, rfl, rfl⟩
  | sw => exact ⟨_, .word, _, rfl, rfl⟩
  | _ => cases hg

/-- A completed instruction keeps the buffer, or is a STORE and made one `MemWrite` at its data access (R48). -/
theorem exec_next_mem {i : Instr} {s t : State} (h : exec i s = .next t) :
    t.mem = s.mem
    ∨ (i.group = .store ∧ ∃ a n v, dataAccess i s = some (a, widthBytes n) ∧ s.mem.write a n v = some t.mem) := by
  cases exec_end i s with
  | writes rd v next _ ho =>
    obtain rfl := Host.Outcome.next.inj (ho.symm.trans h)
    exact .inl (writeReg_mem s rd v)
  | nothing next _ ho =>
    obtain rfl := Host.Outcome.next.inj (ho.symm.trans h)
    exact .inl rfl
  | stores _ _ _ _ _ hg _ _ =>
    obtain ⟨a, n, v, hx, ho⟩ := exec_of_group_store hg s
    exact .inr ⟨hg, a, n, v, hx, write_of_finishStore_next (ho.symm.trans h)⟩
  | outside _ ho => cases ho.symm.trans h

/-- A byte that a `MemWrite` changed lies in the access, and the access in the buffer (R42, R45). -/
theorem mem_access_of_write_changed {m m' : Memory} {a : Word} {n : Width} {v : Word} (h : m.write a n v = some m') {x : Nat}
    (hx : m'.byteAt x ≠ m.byteAt x) : a.toNat ≤ x ∧ x < a.toNat + widthBytes n ∧ x < m.size := by
  obtain ⟨-, hothers, -, -⟩ := write_spec h
  obtain ⟨hin, -⟩ := (write_eq_some_iff ..).1 h
  have hacc : ¬ (x < a.toNat ∨ a.toNat + widthBytes n ≤ x) := fun hout => hx (hothers x hout)
  omega

/-- Settles O43: the buffer is kept, or is what one `MemWrite` at the data access leaves. -/
theorem onlyStoresChangeBytesInsideTheirAccess : Obligations.OnlyStoresChangeBytesInsideTheirAccess := by
  intro i s t h
  rcases exec_next_mem h with hmem | ⟨hg, a, n, v, hx, hw⟩
  · rw [hmem]
    exact ⟨rfl, fun x hne => absurd rfl hne⟩
  · obtain ⟨-, -, hsize, -⟩ := write_spec hw
    exact ⟨hsize, fun x hne => ⟨hg, a, _, hx, mem_access_of_write_changed hw hne⟩⟩

/-! ## Reads and fetches after a store -/

/-- A read inside a buffer of a size the spec allows, at an address given as a number: it does not wrap (R9, R42). -/
theorem load_ofNat {s : State} (hs : s.Inv) {x : Nat} {n : Width} (hx : x + widthBytes n ≤ s.mem.size) :
    s.load (BitVec.ofNat 32 x) n = some (s.mem.assemble x n) := by
  obtain ⟨hsize, -, -⟩ := (memory_wf_iff _).1 hs.1
  have hpos : 0 < widthBytes n := by cases n <;> decide
  have hlt : x < 4294967296 := by simp only [Config.addressSpace] at hsize; omega
  have hnat : (BitVec.ofNat 32 x).toNat = x := Nat.mod_eq_of_lt hlt
  exact (read_eq_some_iff ..).2 ⟨by rwa [hnat], by rw [hnat]⟩

/-- After a completed SW, a read of any width inside the stored word sees that word's bytes (R43). -/
theorem load_of_sw_next {rs1 rs2 : RegIdx} {imm : Word} {s t : State} (hs : s.Inv) (h : exec (.sw rs1 rs2 imm) s = .next t)
    (n : Width) {k : Nat} (hk : k + widthBytes n ≤ 4) :
    ∃ x, t.load (BitVec.ofNat 32 ((effectiveAddress s rs1 imm).toNat + k)) n = some x
      ∧ x.toNat = (s.readReg rs2).toNat / 256 ^ k % 256 ^ widthBytes n := by
  have hw : s.mem.write (effectiveAddress s rs1 imm) .word (s.readReg rs2) = some t.mem := write_of_finishStore_next h
  have hin : (effectiveAddress s rs1 imm).toNat + 4 ≤ s.mem.size := ((write_eq_some_iff ..).1 hw).1
  obtain ⟨-, -, hsize, -⟩ := write_spec hw
  exact ⟨_, load_ofNat (exec_inv hs h) (by omega), assemble_write hw hk⟩

/-- Settles O49: a byte at offset 0 to 3 and a halfword at offset 0 to 2 lie inside the stored word. -/
theorem narrowReadsSeeTheBytesOfAStoredWord : Obligations.NarrowReadsSeeTheBytesOfAStoredWord :=
  fun _ _ _ _ _ hs h => ⟨fun _ hk => load_of_sw_next hs h .byte hk,
    fun _ hk => load_of_sw_next hs h .half (Nat.add_le_add_right (Nat.le_of_lt_succ hk) 2)⟩

/-- Whether a fetch is in range depends on `pc` and MEM_SIZE only (R47). -/
theorem fetch_isSome_congr {s t : State} (hpc : t.pc = s.pc) (hsize : t.mem.size = s.mem.size) :
    t.fetch.isSome = s.fetch.isSome := by
  rw [Bool.eq_iff_iff, Option.isSome_iff_ne_none, Option.isSome_iff_ne_none, Ne, Ne, fetch_eq_none_iff, fetch_eq_none_iff,
    hpc, hsize]

/-- SB, SH and SW are one `MemWrite` each, of 1, 2 and 4 bytes of `x[rs2]` at the effective address (R48, R130). -/
theorem exec_store {rs1 rs2 : RegIdx} {imm : Word} {i : Instr} {n : Nat}
    (h : (i, n) ∈ [(Instr.sb rs1 rs2 imm, 1), (Instr.sh rs1 rs2 imm, 2), (Instr.sw rs1 rs2 imm, 4)]) (s : State) :
    ∃ w, widthBytes w = n ∧ exec i s = finishStore s (effectiveAddress s rs1 imm) w (s.readReg rs2) := by
  simp only [List.mem_cons, Prod.mk.injEq, List.not_mem_nil, or_false] at h
  rcases h with ⟨rfl, rfl⟩ | ⟨rfl, rfl⟩ | ⟨rfl, rfl⟩
  · exact ⟨.byte, rfl, rfl⟩
  · exact ⟨.half, rfl, rfl⟩
  · exact ⟨.word, rfl, rfl⟩

/-- Settles O50: the fetched word's bytes are the buffer's, and those are what the write left. -/
theorem storesAreSeenByTheNextFetch : Obligations.StoresAreSeenByTheNextFetch := by
  refine ⟨fun rs1 rs2 imm i n s t p hi h => ?_, fun s a b p w ha hf k hk => ?_⟩
  · obtain ⟨width, rfl, ho⟩ := exec_store hi s
    have hw := write_of_finishStore_next (ho.symm.trans h)
    obtain ⟨-, -, hsize, -⟩ := write_spec hw
    exact ⟨fetch_isSome_congr rfl hsize, fun w hf k hk => (fetch_byte hf hk).trans (byteAt_write hw _)⟩
  · rw [fetch_byte hf hk, hostMove_writeByte_inside b ha]
    exact (congrArg BitVec.toNat (byteAt_setByte s.mem a _ b)).trans (apply_ite BitVec.toNat _ _ _)

end Sys2Proof.Machine

/-! Proofs of the statements of spec/30_encoding.md: the fields and immediates of a word, decoding and encoding as inverses, the
rows of the opcode table, and which words are no instruction. -/

namespace Sys2Proof

/-! ## The record and the immediates of a word, as numbers -/

/-- Settles O2: funct7 is the topmost field, so its number is the quotient alone. -/
theorem decodedRecordFollowsFieldTable : Obligations.DecodedRecordFollowsFieldTable := by
  intro f w
  refine ⟨opcodeOf_toNat w, ?_⟩
  have h7 : (funct7Of w).toNat = w.toNat / 33554432 := by
    have := w.isLt
    rw [funct7Of_toNat, Nat.mod_eq_of_lt (by omega)]
  cases f <;> simp [extract, h7, funct3Of_toNat, rdOf_val, rs1Of_val, rs2Of_val]

/-- Settles O3: the signed reading of each assembled pattern, below and above the sign bit. -/
theorem immediatesAreTheSignedFields : Obligations.ImmediatesAreTheSignedFields := by
  intro w
  have := w.isLt
  refine ⟨?_, ?_, ?_, immU_toNat w, ?_⟩
  · rw [word_toInt, immI_toNat]; split <;> omega
  · rw [word_toInt, immS_toNat]; split <;> omega
  · rw [word_toInt, immB_toNat]; split <;> omega
  · rw [word_toInt, immJ_toNat]; split <;> omega

/-! ## Extracting the fields of an encoded word -/

theorem extract_encodeR (f7 : BitVec 7) (f3 : BitVec 3) (rd rs1 rs2 : RegIdx) (op : BitVec 7) :
    extract .R (encodeR f7 f3 rd rs1 rs2 op) = ⟨.R, f7, f3, rd, rs1, rs2, 0⟩ := by
  obtain ⟨-, hf7, hf3, hrd, hrs1, hrs2⟩ := fields_encodeR f7 f3 rd rs1 rs2 op
  rw [extract, hf7, hf3, hrd, hrs1, hrs2]

theorem extract_encodeI (f3 : BitVec 3) (rd rs1 : RegIdx) {imm : Word} (op : BitVec 7) (h : immFits12 imm = true) :
    extract .I (encodeI f3 rd rs1 imm op) = ⟨.I, 0, f3, rd, rs1, 0, imm⟩ := by
  obtain ⟨-, hf3, hrd, hrs1⟩ := fields_encodeI f3 rd rs1 imm op
  rw [extract, hf3, hrd, hrs1, immI_encodeI f3 rd rs1 op h]

theorem extract_encodeS (f3 : BitVec 3) (rs1 rs2 : RegIdx) {imm : Word} (op : BitVec 7) (h : immFits12 imm = true) :
    extract .S (encodeS f3 rs1 rs2 imm op) = ⟨.S, 0, f3, 0, rs1, rs2, imm⟩ := by
  obtain ⟨-, hf3, hrs1, hrs2⟩ := fields_encodeS f3 rs1 rs2 imm op
  rw [extract, hf3, hrs1, hrs2, immS_encodeS f3 rs1 rs2 op h]

theorem extract_encodeB (f3 : BitVec 3) (rs1 rs2 : RegIdx) {imm : Word} (op : BitVec 7) (h : immFitsB imm = true) :
    extract .B (encodeB f3 rs1 rs2 imm op) = ⟨.B, 0, f3, 0, rs1, rs2, imm⟩ := by
  obtain ⟨-, hf3, hrs1, hrs2⟩ := fields_encodeB f3 rs1 rs2 imm op
  rw [extract, hf3, hrs1, hrs2, immB_encodeB f3 rs1 rs2 op h]

theorem extract_encodeU (rd : RegIdx) {imm : Word} (op : BitVec 7) (h : immFitsU imm = true) :
    extract .U (encodeU rd imm op) = ⟨.U, 0, 0, rd, 0, 0, imm⟩ := by
  obtain ⟨-, hrd⟩ := fields_encodeU rd imm op
  rw [extract, hrd, immU_encodeU rd op h]

theorem extract_encodeJ (rd : RegIdx) {imm : Word} (op : BitVec 7) (h : immFitsJ imm = true) :
    extract .J (encodeJ rd imm op) = ⟨.J, 0, 0, rd, 0, 0, imm⟩ := by
  obtain ⟨-, hrd⟩ := fields_encodeJ rd imm op
  rw [extract, hrd, immJ_encodeJ rd op h]

/-! ## The encoders as the formulas of R71 -/

theorem ofNat_val_eq_setWidth (r : RegIdx) : BitVec.ofNat 32 r.val = (bitsOfReg r).setWidth 32 := by
  apply BitVec.eq_of_toNat_eq
  rw [BitVec.toNat_ofNat, BitVec.toNat_setWidth, bitsOfReg_toNat]

/-- Settles O4: as a word of 32 bits a concatenation is the or of its parts, each shifted past the less significant ones. -/
theorem fieldRoundTripOfEveryFormat : Obligations.FieldRoundTripOfEveryFormat := by
  intro f7 f3 rd rs1 rs2 imm op
  refine ⟨⟨?_, extract_encodeR f7 f3 rd rs1 rs2 op⟩, ⟨?_, extract_encodeI f3 rd rs1 op⟩, ⟨?_, extract_encodeS f3 rs1 rs2 op⟩,
    ⟨?_, extract_encodeB f3 rs1 rs2 op⟩, ⟨?_, extract_encodeU rd op⟩, ⟨?_, extract_encodeJ rd op⟩⟩
  all_goals
    refine (BitVec.setWidth_eq _).symm.trans ?_
    simp only [encodeR, encodeI, encodeS, encodeB, encodeU, encodeJ, ofNat_val_eq_setWidth,
      BitVec.setWidth_append_eq_shiftLeft_setWidth_or, BitVec.shiftLeft_or_distrib, ← BitVec.shiftLeft_add]

/-! ## Words of the test vectors -/

/-- Settles O1: ten closed words, decoded. -/
theorem specWordsDecodeToTheirInstructions : Obligations.SpecWordsDecodeToTheirInstructions := by
  unfold Obligations.SpecWordsDecodeToTheirInstructions
  decide

/-! ## Decoding the encoding of an instruction -/

/-- The router sends the word of any instruction to its group: `Laws.RoutedGroup` for every constructor. -/
theorem route_encode (i : Instr) : route (opcodeOf (encode i)) = some i.group := by
  cases i with
  | lui => exact Laws.RoutedGroup.lui ..
  | auipc => exact Laws.RoutedGroup.auipc ..
  | jal => exact Laws.RoutedGroup.jal ..
  | jalr => exact Laws.RoutedGroup.jalr ..
  | beq => exact Laws.RoutedGroup.beq ..
  | bne => exact Laws.RoutedGroup.bne ..
  | blt => exact Laws.RoutedGroup.blt ..
  | bge => exact Laws.RoutedGroup.bge ..
  | bltu => exact Laws.RoutedGroup.bltu ..
  | bgeu => exact Laws.RoutedGroup.bgeu ..
  | lb => exact Laws.RoutedGroup.lb ..
  | lh => exact Laws.RoutedGroup.lh ..
  | lw => exact Laws.RoutedGroup.lw ..
  | lbu => exact Laws.RoutedGroup.lbu ..
  | lhu => exact Laws.RoutedGroup.lhu ..
  | sb => exact Laws.RoutedGroup.sb ..
  | sh => exact Laws.RoutedGroup.sh ..
  | sw => exact Laws.RoutedGroup.sw ..
  | addi => exact Laws.RoutedGroup.addi ..
  | slli => exact Laws.RoutedGroup.slli ..
  | slti => exact Laws.RoutedGroup.slti ..
  | sltiu => exact Laws.RoutedGroup.sltiu ..
  | xori => exact Laws.RoutedGroup.xori ..
  | srli => exact Laws.RoutedGroup.srli ..
  | ori => exact Laws.RoutedGroup.ori ..
  | andi => exact Laws.RoutedGroup.andi ..
  | add => exact Laws.RoutedGroup.add ..
  | sub => exact Laws.RoutedGroup.sub ..
  | sll => exact Laws.RoutedGroup.sll ..
  | slt => exact Laws.RoutedGroup.slt ..
  | sltu => exact Laws.RoutedGroup.sltu ..
  | xor => exact Laws.RoutedGroup.xor ..
  | srl => exact Laws.RoutedGroup.srl ..
  | sra => exact Laws.RoutedGroup.sra ..
  | or => exact Laws.RoutedGroup.or ..
  | and => exact Laws.RoutedGroup.and ..

/-- A word whose opcode selects a group is decoded by the selection of that group, on the record of its format (R62, R64). -/
theorem decode_of_route {w : Word} {g : Group} (h : route (opcodeOf w) = some g) :
    decode w = select g (extract (groupFormat g) w) := by
  rw [decode, h]

/-- The selection of an instruction's group gives it back from the record of its encoding (R71, R72). -/
theorem select_extract_encode {i : Instr} (h : i.wf = true) :
    select i.group (extract (groupFormat i.group) (encode i)) = .ok i := by
  cases i with
  | lui rd imm | auipc rd imm => exact congrArg (select _) (extract_encodeU rd _ h)
  | jal rd imm => exact congrArg (select _) (extract_encodeJ rd _ h)
  | beq rs1 rs2 imm | bne rs1 rs2 imm | blt rs1 rs2 imm | bge rs1 rs2 imm | bltu rs1 rs2 imm | bgeu rs1 rs2 imm =>
    exact congrArg (select _) (extract_encodeB _ rs1 rs2 _ h)
  | sb rs1 rs2 imm | sh rs1 rs2 imm | sw rs1 rs2 imm => exact congrArg (select _) (extract_encodeS _ rs1 rs2 _ h)
  | add | sub | sll | slt | sltu | xor | srl | sra | or | and => exact congrArg (select _) (extract_encodeR ..)
  | _ => exact congrArg (select _) (extract_encodeI _ _ _ _ h)

/-- Settles O5: the word is routed to the instruction's own group, whose selection reads the instruction's own fields. -/
theorem decodeOfEncodeIsTheInstruction : Obligations.DecodeOfEncodeIsTheInstruction := fun i h =>
  (decode_of_route (route_encode i)).trans (select_extract_encode h)

/-! ## Encoding what a word decodes to -/

/-- The immediates a format can carry (R65 to R69). -/
def immFits : Format → Word → Bool
  | .R, _ => true
  | .I, imm => immFits12 imm
  | .S, imm => immFits12 imm
  | .B, imm => immFitsB imm
  | .U, imm => immFitsU imm
  | .J, imm => immFitsJ imm

/-- The word of a record: the rows of R71, by format. -/
def encodeRecord (f : Format) (d : DecodedRecord) (op : BitVec 7) : Word :=
  match f with
  | .R => encodeR d.funct7 d.funct3 d.rd d.rs1 d.rs2 op
  | .I => encodeI d.funct3 d.rd d.rs1 d.imm op
  | .S => encodeS d.funct3 d.rs1 d.rs2 d.imm op
  | .B => encodeB d.funct3 d.rs1 d.rs2 d.imm op
  | .U => encodeU d.rd d.imm op
  | .J => encodeJ d.rd d.imm op

theorem immFits_extract (f : Format) (w : Word) : immFits f (extract f w).imm = true := by
  cases f with
  | R => rfl
  | I => exact fits12_immI w
  | S => exact fits12_immS w
  | B => exact fits_immB w
  | U => exact fits_immU w
  | J => exact fits_immJ w

theorem encodeRecord_extract (f : Format) (w : Word) : encodeRecord f (extract f w) (opcodeOf w) = w := by
  cases f with
  | R => exact encodeR_fields w
  | I => exact encodeI_fields w
  | S => exact encodeS_fields w
  | B => exact encodeB_fields w
  | U => exact encodeU_fields w
  | J => exact encodeJ_fields w

/-- An instruction that comes from a record of a group: what the inverse direction needs to know of a selection. -/
structure ComesFrom (g : Group) (d : DecodedRecord) (i : Instr) : Prop where
  group  : i.group = g
  wf     : i.wf = immFits (groupFormat g) d.imm
  encode : encode i = encodeRecord (groupFormat g) d (groupOpcode g)

/-- A selection from the OP group was made by funct7 first, then by funct3. -/
theorem selectOp_ok {d : DecodedRecord} {i : Instr} (h : selectOp d = .ok i) : ComesFrom .op d i := by
  unfold selectOp selectOpPlain selectOpAlternate at h
  split at h
  case h_1 | h_2 => split at h <;> cases h <;> exact ⟨rfl, rfl, by simp only [encodeRecord, groupFormat, *]; rfl⟩
  case h_3 => cases h

/-- Each row of a group's selection answers the instruction whose funct3 the record has (R72). -/
theorem select_ok {g : Group} {d : DecodedRecord} {i : Instr} (h : select g d = .ok i) : ComesFrom g d i := by
  cases g with
  | lui | auipc | jal => cases h; exact ⟨rfl, rfl, rfl⟩
  | op => exact selectOp_ok h
  | jalr | branch | load | store | opImm =>
    simp only [select, selectJalr, selectBranch, selectLoad, selectStore, selectOpImm] at h
    split at h <;> cases h <;> exact ⟨rfl, rfl, by simp only [encodeRecord, groupFormat, *]; rfl⟩

/-- What a word that decodes decodes to: an instruction of the group its opcode selects, with the record of that format. -/
theorem decode_ok {w : Word} {i : Instr} (h : decode w = .ok i) :
    route (opcodeOf w) = some i.group ∧ ComesFrom i.group (extract (groupFormat i.group) w) i := by
  cases hr : route (opcodeOf w) with
  | none => rw [decode, hr] at h; cases h
  | some g =>
    have hi := select_ok ((decode_of_route hr).symm.trans h)
    rw [hi.group]
    exact ⟨rfl, hi⟩

/-- Settles O6: the record of a word holds all of its bits (R73). -/
theorem encodeOfDecodeIsTheWord : Obligations.EncodeOfDecodeIsTheWord := by
  intro w i h
  obtain ⟨hr, -, hwf, henc⟩ := decode_ok h
  rw [← route_eq_some hr] at henc
  exact ⟨hwf.trans (immFits_extract _ w), henc.trans (encodeRecord_extract _ w)⟩

/-! ## The rows of the opcode table -/

/-- The bits that select an instruction among the words of a format (R73). -/
def formatMask : Format → Word
  | .R => 0xFE00707F
  | .I => 0x707F
  | .S => 0x707F
  | .B => 0x707F
  | .U => 0x7F
  | .J => 0x7F

/-- A mask that has the opcode, `a` of funct7 and `b` of funct3 leaves those bits of a word, every other bit 0. -/
theorem and_encodeR_mask (w : Word) (a : BitVec 7) (b : BitVec 3) :
    w &&& encodeR a b 0 0 0 0x7F = encodeR (funct7Of w &&& a) (funct3Of w &&& b) 0 0 0 (opcodeOf w) := by
  have hreg (r : RegIdx) : bitsOfReg r &&& bitsOfReg 0 = bitsOfReg 0 := BitVec.and_zero
  have hop : opcodeOf w &&& 0x7F = opcodeOf w := BitVec.and_allOnes
  conv_lhs => rw [← encodeR_fields w]
  unfold encodeR
  rw [BitVec.and_append, BitVec.and_append, BitVec.and_append, BitVec.and_append, BitVec.and_append, hreg, hreg, hreg, hop]

/-- Under the mask of a format a word is its opcode and the funct3 and funct7 of its record, every operand field 0. -/
theorem and_formatMask (f : Format) (w : Word) :
    w &&& formatMask f = encodeR (extract f w).funct7 (extract f w).funct3 0 0 0 (opcodeOf w) := by
  have h7 : funct7Of w &&& 0x7F = funct7Of w := BitVec.and_allOnes
  have h3 : funct3Of w &&& 7 = funct3Of w := BitVec.and_allOnes
  have h70 : funct7Of w &&& 0 = 0 := BitVec.and_zero
  have h30 : funct3Of w &&& 0 = 0 := BitVec.and_zero
  have h (a b) := and_encodeR_mask w a b
  cases f with
  | R => exact (h 0x7F 7).trans (by rw [h7, h3]; rfl)
  | I | S | B => exact (h 0 7).trans (by rw [h3, h70]; rfl)
  | U | J => exact (h 0 0).trans (by rw [h70, h30]; rfl)

/-- Words agree under the mask of a format exactly when they agree in opcode and in the funct3 and funct7 of the record. -/
theorem and_formatMask_eq_iff (f : Format) (w v : Word) :
    w &&& formatMask f = v &&& formatMask f ↔ opcodeOf w = opcodeOf v
      ∧ (extract f w).funct3 = (extract f v).funct3 ∧ (extract f w).funct7 = (extract f v).funct7 := by
  rw [and_formatMask, and_formatMask]
  refine ⟨fun h => ?_, fun ⟨hop, h3, h7⟩ => by rw [hop, h3, h7]⟩
  obtain ⟨hop, h7, h3, -⟩ := fields_encodeR (extract f w).funct7 (extract f w).funct3 0 0 0 (opcodeOf w)
  obtain ⟨hop', h7', h3', -⟩ := fields_encodeR (extract f v).funct7 (extract f v).funct3 0 0 0 (opcodeOf v)
  rw [h] at hop h3 h7
  exact ⟨hop.symm.trans hop', h3.symm.trans h3', h7.symm.trans h7'⟩

theorem encodeR_and_mask (f7 : BitVec 7) (f3 : BitVec 3) (rd rs1 rs2 : RegIdx) (op : BitVec 7) :
    encodeR f7 f3 rd rs1 rs2 op &&& formatMask .R = encodeR f7 f3 0 0 0 op := by
  obtain ⟨hop, h7, h3, -⟩ := fields_encodeR f7 f3 rd rs1 rs2 op
  rw [and_formatMask, extract, hop, h3, h7]

theorem encodeI_and_mask (f3 : BitVec 3) (rd rs1 : RegIdx) (imm : Word) (op : BitVec 7) :
    encodeI f3 rd rs1 imm op &&& formatMask .I = encodeR 0 f3 0 0 0 op := by
  obtain ⟨hop, h3, -⟩ := fields_encodeI f3 rd rs1 imm op
  rw [and_formatMask, extract, hop, h3]

theorem encodeS_and_mask (f3 : BitVec 3) (rs1 rs2 : RegIdx) (imm : Word) (op : BitVec 7) :
    encodeS f3 rs1 rs2 imm op &&& formatMask .S = encodeR 0 f3 0 0 0 op := by
  obtain ⟨hop, h3, -⟩ := fields_encodeS f3 rs1 rs2 imm op
  rw [and_formatMask, extract, hop, h3]

theorem encodeB_and_mask (f3 : BitVec 3) (rs1 rs2 : RegIdx) (imm : Word) (op : BitVec 7) :
    encodeB f3 rs1 rs2 imm op &&& formatMask .B = encodeR 0 f3 0 0 0 op := by
  obtain ⟨hop, h3, -⟩ := fields_encodeB f3 rs1 rs2 imm op
  rw [and_formatMask, extract, hop, h3]

theorem encodeU_and_mask (rd : RegIdx) (imm : Word) (op : BitVec 7) :
    encodeU rd imm op &&& formatMask .U = encodeR 0 0 0 0 0 op := by
  obtain ⟨hop, -⟩ := fields_encodeU rd imm op
  rw [and_formatMask, extract, hop]

theorem encodeJ_and_mask (rd : RegIdx) (imm : Word) (op : BitVec 7) :
    encodeJ rd imm op &&& formatMask .J = encodeR 0 0 0 0 0 op := by
  obtain ⟨hop, -⟩ := fields_encodeJ rd imm op
  rw [and_formatMask, extract, hop]

end Sys2Proof

namespace Sys2Proof.Machine

/-- The mnemonic a selection gives depends on funct3 and funct7 only (R73). -/
theorem map_mnemonicText_select_congr (g : Group) {d e : DecodedRecord} (h3 : d.funct3 = e.funct3) (h7 : d.funct7 = e.funct7) :
    (select g d).map mnemonicText = (select g e).map mnemonicText := by
  cases g with
  | lui | auipc | jal => rfl
  | jalr => simp only [select, selectJalr, h3]; split <;> rfl
  | branch => simp only [select, selectBranch, h3]; split <;> rfl
  | load => simp only [select, selectLoad, h3]; split <;> rfl
  | store => simp only [select, selectStore, h3]; split <;> rfl
  | opImm => simp only [select, selectOpImm, h3]; split <;> rfl
  | op =>
    simp only [select, selectOp, selectOpPlain, selectOpAlternate, h3, h7]
    split
    · split <;> rfl
    · split <;> rfl
    · rfl

/-- Words that agree under the mask of their group's format decode to one mnemonic: no other bit takes part (R73). -/
theorem map_mnemonicText_decode_congr {w v : Word} {j : Instr} (hv : decode v = .ok j)
    (h : w &&& formatMask (groupFormat j.group) = v &&& formatMask (groupFormat j.group)) :
    (decode w).map mnemonicText = .ok (mnemonicText j) := by
  obtain ⟨hop, h3, h7⟩ := (and_formatMask_eq_iff ..).1 h
  obtain ⟨hr, -⟩ := decode_ok hv
  rw [decode_of_route (hop ▸ hr), map_mnemonicText_select_congr _ h3 h7, ← decode_of_route hr, hv]
  rfl

/-- The row of an instruction: its mnemonic, the mask of its format, and its word under that mask. -/
def rowOf (i : Instr) : TableRow :=
  ⟨mnemonicText i, formatMask (groupFormat i.group), encode i &&& formatMask (groupFormat i.group)⟩

/-- A row of the table is the row of an instruction as soon as its bits are the instruction's word under the mask. The
membership is then about literals, though the instruction's operands still stand in it (`decide` asks for a closed goal). -/
theorem rowOf_mem {i : Instr} {bits : Word} (hbits : encode i &&& formatMask (groupFormat i.group) = bits)
    (h : ⟨mnemonicText i, formatMask (groupFormat i.group), bits⟩ ∈ opcodeTable) : rowOf i ∈ opcodeTable := by
  rwa [rowOf, hbits]

/-- Every instruction has its row in the table: the row's bits are the opcode and the selecting fields of the encoding. -/
theorem rowOf_mem_opcodeTable (i : Instr) : rowOf i ∈ opcodeTable := by
  cases i with
  | lui | auipc => exact rowOf_mem (encodeU_and_mask ..) (of_decide_eq_true rfl)
  | jal => exact rowOf_mem (encodeJ_and_mask ..) (of_decide_eq_true rfl)
  | beq | bne | blt | bge | bltu | bgeu => exact rowOf_mem (encodeB_and_mask ..) (of_decide_eq_true rfl)
  | sb | sh | sw => exact rowOf_mem (encodeS_and_mask ..) (of_decide_eq_true rfl)
  | add | sub | sll | slt | sltu | xor | srl | sra | or | and => exact rowOf_mem (encodeR_and_mask ..) (of_decide_eq_true rfl)
  | _ => exact rowOf_mem (encodeI_and_mask ..) (of_decide_eq_true rfl)

theorem eq_of_mnemonic_eq {r q : TableRow} (hr : r ∈ opcodeTable) (hq : q ∈ opcodeTable) (h : r.mnemonic = q.mnemonic) :
    r = q :=
  List.inj_on_of_nodup_map (f := TableRow.mnemonic) (by decide) hr hq h

/-- The bits of every row, read as a word, decode to an instruction of that row. -/
theorem map_rowOf_decode_bits : ∀ row ∈ opcodeTable, (decode row.bits).map rowOf = .ok row := by decide

theorem map_decode_eq_ok_iff {α : Type} (f : Instr → α) (w : Word) (a : α) :
    (decode w).map f = .ok a ↔ ∃ i, decode w = .ok i ∧ f i = a := by
  cases decode w <;> simp [Except.map]

/-- Settles O7: from left to right the word is its instruction's encoding, whose row is the only one with that mnemonic; from
right to left it agrees under the mask with the row's own bits. -/
theorem opcodeTableRowsSelectByTheirMasks : Obligations.OpcodeTableRowsSelectByTheirMasks := by
  refine ⟨rfl, fun row hrow w => ⟨?_, fun h => ?_⟩⟩
  · rintro ⟨i, hi, hm⟩
    obtain ⟨-, rfl⟩ := encodeOfDecodeIsTheWord w i hi
    rw [← eq_of_mnemonic_eq (rowOf_mem_opcodeTable i) hrow hm]
    rfl
  · obtain ⟨j, hj, rfl⟩ := (map_decode_eq_ok_iff ..).1 (map_rowOf_decode_bits row hrow)
    obtain ⟨-, hbits⟩ := encodeOfDecodeIsTheWord _ j hj
    rw [← hbits] at hj
    exact (map_decode_eq_ok_iff ..).1 (map_mnemonicText_decode_congr hj h)

/-! ## The words that are no instruction -/

theorem route_eq_none_iff (op : BitVec 7) : route op = none ↔ op ∉ groupOpcodes := by
  have hsome : ∀ o ∈ groupOpcodes, route o ≠ none := by decide
  refine ⟨fun h hop => hsome op hop h, fun h => Option.eq_none_iff_forall_ne_some.2 fun g hg => h ?_⟩
  rw [route_eq_some hg]
  cases g <;> decide

/-- The selecting fields a group has no instruction for (R74). -/
def Rejects (g : Group) (d : DecodedRecord) : Prop :=
  match g with
  | .lui | .auipc | .jal | .opImm => False
  | .jalr => d.funct3 ≠ 0b000#3
  | .branch => d.funct3 ∈ [0b010#3, 0b011#3]
  | .load => d.funct3 ∈ [0b011#3, 0b110#3, 0b111#3]
  | .store => d.funct3 ∈ [0b011#3, 0b100#3, 0b101#3, 0b110#3, 0b111#3]
  | .op => d.funct7 ∉ [0b0000000#7, 0b0100000#7] ∨ (d.funct7 = 0b0100000#7 ∧ d.funct3 ∉ [0b000#3, 0b101#3])

theorem funct3_cases : ∀ f : BitVec 3, f = 0 ∨ f = 1 ∨ f = 2 ∨ f = 3 ∨ f = 4 ∨ f = 5 ∨ f = 6 ∨ f = 7 := by decide

theorem selectOp_eq_error_iff (d : DecodedRecord) : (∃ e, selectOp d = .error e) ↔ Rejects .op d := by
  unfold selectOp
  split
  case h_1 h7 =>
    rcases funct3_cases d.funct3 with h | h | h | h | h | h | h | h <;> simp [selectOpPlain, Rejects, h, h7]
  case h_2 h7 =>
    rcases funct3_cases d.funct3 with h | h | h | h | h | h | h | h <;> simp [selectOpAlternate, Rejects, h, h7]
  case h_3 hplain halt =>
    exact ⟨fun _ => .inl (by simpa using ⟨hplain, halt⟩), fun _ => ⟨_, rfl⟩⟩

/-- A selection fails on the rejected fields only (R74). -/
theorem select_eq_error_iff (g : Group) (d : DecodedRecord) : (∃ e, select g d = .error e) ↔ Rejects g d := by
  cases g with
  | op => exact selectOp_eq_error_iff d
  | lui | auipc | jal => simp [select, Rejects]
  | jalr | branch | load | store | opImm =>
    rcases funct3_cases d.funct3 with h | h | h | h | h | h | h | h <;>
      simp [select, selectJalr, selectBranch, selectLoad, selectStore, selectOpImm, Rejects, h]

/-- Within a group the conditions of R74 are the rejected selecting fields. -/
theorem illegalEncoding_iff_rejects {w : Word} {g : Group} (h : route (opcodeOf w) = some g) :
    IllegalEncoding w ↔ Rejects g (extract (groupFormat g) w) := by
  have hop := route_eq_some h
  cases g <;> simp [IllegalEncoding, Rejects, hop, groupOpcode, groupOpcodes, groupFormat, extract]

/-- The decoder rejects exactly the words of R74. -/
theorem decode_eq_error_iff (w : Word) : (∃ e, decode w = .error e) ↔ IllegalEncoding w := by
  cases hr : route (opcodeOf w) with
  | none =>
    have hd : decode w = .error .unknownOpcode := by rw [decode, hr]
    exact ⟨fun _ => .inl ((route_eq_none_iff _).1 hr), fun _ => ⟨_, hd⟩⟩
  | some g => rw [decode_of_route hr, select_eq_error_iff, illegalEncoding_iff_rejects hr]

/-- An instruction's own fault is never MalformedInstruction, so that fault of `execute` is the decoder's (R74, R202). -/
theorem executeWord_eq_malformed_iff (w : Word) (s : State) :
    executeWord w s = .fault .malformedInstruction ↔ ∃ e, decode w = .error e := by
  rcases executeWord_cases w s with ⟨e, he, ho⟩ | ⟨i, hi, ho⟩
  · exact ⟨fun _ => ⟨e, he⟩, fun _ => ho⟩
  · rw [ho, hi]
    rcases exec_next_or_outOfBounds i s.clearDirty with ⟨t, ht⟩ | ht <;> simp [ht]

/-- No instruction prints as the sentinel: "bad" is no mnemonic (R181). -/
theorem instrText_ne_badInstruction (i : Instr) : instrText i ≠ badInstruction := by
  intro h
  have hsplit : (mnemonicText i).toList ++ ' ' :: (operandText i).toList = "bad".toList ++ ' ' :: "instruction".toList := by
    have h := congrArg String.toList h
    simp only [instrText, String.toList_append, List.append_assoc] at h
    exact h
  obtain ⟨hbad, -⟩ := split_text (mnemonicText_plain i) (plainText_of_all (by decide)) (by decide) hsplit
  have hnot : ∀ row ∈ opcodeTable, row.mnemonic ≠ "bad" := by decide
  exact hnot _ (rowOf_mem_opcodeTable i) hbad

theorem disassemble_eq_badInstruction_iff (w : Word) : disassemble w = badInstruction ↔ ∃ e, decode w = .error e := by
  unfold disassemble
  cases decode w with
  | ok i => exact ⟨fun h => absurd h (instrText_ne_badInstruction i), fun ⟨_, h⟩ => nomatch h⟩
  | error e => exact ⟨fun _ => ⟨e, rfl⟩, fun _ => rfl⟩

/-- Settles O8: `execute` and the disassembler both reject exactly the words the decoder rejects. -/
theorem malformedExactlyOnTheSevenConditions : Obligations.MalformedExactlyOnTheSevenConditions := by
  intro w s
  have hexec := (executeWord_eq_malformed_iff w s).trans (decode_eq_error_iff w)
  refine ⟨hexec, fun h => ?_, (disassemble_eq_badInstruction_iff w).trans (decode_eq_error_iff w)⟩
  have hcmd : command (.execute w) s = (s.afterFault, .fault .malformedInstruction) := congrArg (settle s) (hexec.2 h)
  rw [hcmd]
  exact afterFault_faultLeaves s

end Sys2Proof.Machine

/-! Proofs of the statements of spec/40_step_and_dispatch.md: what a step runs, and where each instruction leaves `pc`. -/

namespace Sys2Proof.Machine

/-! ## The program counter after an instruction -/

theorem pc_of_finishWrite_next {s t : State} {rd : RegIdx} {v next : Word} (h : finishWrite s rd v next = .next t) :
    t.pc = next := by
  obtain rfl := Host.Outcome.next.inj h
  rfl

theorem pc_of_finishNoWrite_next {s t : State} {next : Word} (h : finishNoWrite s next = .next t) : t.pc = next := by
  obtain rfl := Host.Outcome.next.inj h
  rfl

/-- A LOAD that completes goes on to the next instruction (R120). -/
theorem pc_of_finishLoad_next {s t : State} {rd : RegIdx} {v : Option Word} (h : finishLoad s rd v = .next t) :
    t.pc = s.nextPc := by
  rcases finishLoad_cases s rd v with ⟨x, -, ho⟩ | ⟨-, ho⟩
  · exact pc_of_finishWrite_next (ho.symm.trans h)
  · cases ho.symm.trans h

/-- A STORE that completes goes on to the next instruction (R130). -/
theorem pc_of_finishStore_next {s t : State} {a : Word} {n : Width} {v : Word} (h : finishStore s a n v = .next t) :
    t.pc = s.nextPc := by
  rcases finishStore_cases s a n v with ⟨m, -, ho⟩ | ⟨-, ho⟩
  · obtain rfl := Host.Outcome.next.inj (ho.symm.trans h)
    rfl
  · cases ho.symm.trans h

/-- Every group but the jumps and the branches goes on to the next instruction (R93). -/
theorem exec_next_pc_of_sequential_group {i : Instr} {s t : State}
    (hg : i.group ∈ [.lui, .auipc, .load, .store, .opImm, .op]) (h : exec i s = .next t) : t.pc = s.nextPc := by
  cases i with
  | jal | jalr | beq | bne | blt | bge | bltu | bgeu => simp [Instr.group] at hg
  | lb | lh | lw | lbu | lhu => exact pc_of_finishLoad_next h
  | sb | sh | sw => exact pc_of_finishStore_next h
  | _ => exact pc_of_finishWrite_next h

/-- A BRANCH goes to `pc + imm` when its condition holds and to the next instruction when not, the comparison `c` of the model
deciding the condition `p` of the rule (R93, R110). -/
theorem pc_of_branch_next {s t : State} {imm : Word} {c : Bool} {p : Prop} [Decidable p] (hc : c = true ↔ p)
    (h : finishNoWrite s (branchNext s c imm) = .next t) : t.pc = if p then relativePc s imm else sequentialPc s := by
  rw [pc_of_finishNoWrite_next h, branchNext_eq]
  exact if_congr hc rfl rfl

theorem isEqual_eq_true_iff (a b : Word) : isEqual a b = true ↔ a = b := decide_eq_true_iff

theorem isLessSigned_eq_true_iff (a b : Word) : isLessSigned a b = true ↔ a.toInt < b.toInt := decide_eq_true_iff

theorem isLessUnsigned_eq_true_iff (a b : Word) : isLessUnsigned a b = true ↔ a.toNat < b.toNat := decide_eq_true_iff

theorem not_isEqual_eq_true_iff (a b : Word) : (!isEqual a b) = true ↔ a ≠ b := by
  rw [Bool.not_eq_true', ← Bool.not_eq_true, isEqual_eq_true_iff]

theorem not_isLessSigned_eq_true_iff (a b : Word) : (!isLessSigned a b) = true ↔ b.toInt ≤ a.toInt := by
  rw [Bool.not_eq_true', ← Bool.not_eq_true, isLessSigned_eq_true_iff, not_lt]

theorem not_isLessUnsigned_eq_true_iff (a b : Word) : (!isLessUnsigned a b) = true ↔ b.toNat ≤ a.toNat := by
  rw [Bool.not_eq_true', ← Bool.not_eq_true, isLessUnsigned_eq_true_iff, not_lt]

/-- Settles O42: the end of each group sets `pc`, and a sum of words is the sum modulo 2^32. -/
theorem programCounterFollowsTheGroup : Obligations.ProgramCounterFollowsTheGroup := by
  refine fun i s t h => ⟨fun hg => ?_, ?_, ?_, ?_, ?_, ?_, ?_, ?_, ?_⟩
  · rw [exec_next_pc_of_sequential_group hg h]
    exact BitVec.toNat_add ..
  · rintro rd imm rfl
    rw [pc_of_finishWrite_next h]
    exact BitVec.toNat_add ..
  · rintro rd rs1 imm rfl
    rw [pc_of_finishWrite_next h]
    exact BitVec.toNat_add ..
  · rintro rs1 rs2 imm rfl
    exact pc_of_branch_next (isEqual_eq_true_iff ..) h
  · rintro rs1 rs2 imm rfl
    exact pc_of_branch_next (not_isEqual_eq_true_iff ..) h
  · rintro rs1 rs2 imm rfl
    exact pc_of_branch_next (isLessSigned_eq_true_iff ..) h
  · rintro rs1 rs2 imm rfl
    exact pc_of_branch_next (not_isLessSigned_eq_true_iff ..) h
  · rintro rs1 rs2 imm rfl
    exact pc_of_branch_next (isLessUnsigned_eq_true_iff ..) h
  · rintro rs1 rs2 imm rfl
    exact pc_of_branch_next (not_isLessUnsigned_eq_true_iff ..) h

/-! ## What a step runs -/

/-- A step whose fetch answers is `execute` of the fetched word (R90, R91). -/
theorem step_of_fetch_eq_some {s : State} {w : Word} (h : s.fetch = some w) : step s = executeWord w s := by
  have hf : s.clearDirty.fetch = some w := h
  rw [step, stepOnce, hf, executeWord]

theorem step_eq_executeWord_wordAtPc {s : State} (hin : s.pc.toNat + 4 ≤ s.mem.size) :
    step s = executeWord (wordAtPc s) s :=
  step_of_fetch_eq_some ((fetch_eq_some_iff s _).2 ⟨hin, rfl⟩)

/-- Settles O31: a step in range is `execute` of the word at `pc`, and `execute` runs what the word decodes to. -/
theorem stepRunsTheDecodedInstruction : Obligations.StepRunsTheDecodedInstruction :=
  ⟨fun s _ hin hd => (step_eq_executeWord_wordAtPc hin).trans (executeWord_of_decode s hd),
    fun _ _ s hd => executeWord_of_decode s hd⟩

/-- Settles O32: the two commands settle one outcome on one state. -/
theorem stepEqualsExecuteOfTheFetchedWord : Obligations.StepEqualsExecuteOfTheFetchedWord := fun s hin =>
  have hstep := step_eq_executeWord_wordAtPc hin
  ⟨hstep, congrArg (settle s) hstep⟩

/-! ## The jump to itself -/

/-- `jal zero, 0` stores nothing, stays at its own address and marks register 0 (R21, R105). -/
theorem exec_jal_zero_zero (s : State) : exec (.jal 0 0) s = .next (s.markDirty 0) := by
  have hpc : pcRelative s 0 = s.pc := BitVec.add_zero _
  rw [exec, execJal, finishWrite, writeReg_zero, hpc]
  rfl

/-- Settles O51: the second step starts from the first one's state but for the marker, which no step reads. -/
theorem selfLoopChangesOnlyTheMarker : Obligations.SelfLoopChangesOnlyTheMarker := by
  intro s h
  have hd : decode 0x0000006F = .ok (.jal 0 0) := by decide
  have hstep : step s = .next { s with dirty := some 0 } :=
    ((step_of_fetch_eq_some h).trans (executeWord_of_decode s hd)).trans (exec_jal_zero_zero s.clearDirty)
  exact ⟨hstep, (step_withDirty s (some 0)).trans hstep⟩

end Sys2Proof.Machine

/-! Proofs of the statements of spec/41_lui_auipc.md: the two instructions that carry an upper immediate. -/

namespace Sys2Proof.Machine

/-- The router knows the opcode of every group (R62). -/
@[simp] theorem route_groupOpcode (g : Group) : route (groupOpcode g) = some g := by
  cases g <;> rfl

/-- A word with a group's opcode is decoded by the selection of that group, on the record of its format (R62, R64). -/
theorem decode_of_opcode {w : Word} (g : Group) (h : opcodeOf w = groupOpcode g) :
    decode w = select g (extract (groupFormat g) w) :=
  decode_of_route (by rw [h, route_groupOpcode])

/-- Settles O9: LUI ends by writing its immediate, and its selection takes every word of the opcode. -/
theorem luiLoadsTheUpperImmediate : Obligations.LuiLoadsTheUpperImmediate :=
  ⟨fun _ _ s => finishWrite_of_eq rfl (nextPc_eq s), fun w h => ⟨decode_of_opcode .lui h, immU_toNat w⟩⟩

/-- Settles O10: AUIPC ends by writing `pc + imm`, and its selection takes every word of the opcode. -/
theorem auipcAddsTheUpperImmediateToPc : Obligations.AuipcAddsTheUpperImmediateToPc :=
  ⟨fun _ imm s => finishWrite_of_eq (pcRelative_eq s imm) (nextPc_eq s),
    fun w h => ⟨decode_of_opcode .auipc h, immU_toNat w⟩⟩

end Sys2Proof.Machine

/-! Proofs of the statements of spec/42_jal_jalr.md: the two jumps that link. -/

namespace Sys2Proof.Machine

/-- The target of JALR is the sum modulo 2^32, no bit of it cleared (R106). -/
theorem absoluteTarget_eq (s : State) (rs1 : RegIdx) (imm : Word) :
    absoluteTarget s rs1 imm = BitVec.ofNat 32 ((s.readReg rs1).toNat + imm.toNat) :=
  BitVec.eq_of_toNat_eq (BitVec.toNat_add ..)

/-- The JALR row takes the words of funct3 0 (R72). -/
theorem selectJalr_of_funct3_zero {d : DecodedRecord} (h : d.funct3 = 0) : selectJalr d = .ok (.jalr d.rd d.rs1 d.imm) := by
  rw [selectJalr, h]
  rfl

/-- A word of the JALR opcode with another funct3 is the second condition of R74. -/
theorem illegalEncoding_of_jalr_funct3 {w : Word} (hop : opcodeOf w = 0x67#7) (h3 : funct3Of w ≠ 0) : IllegalEncoding w :=
  .inr (.inl ⟨hop, h3⟩)

/-- Settles O12: JALR ends by writing the link, its target computed from the state before that write; its selection takes
funct3 0 and the seven conditions take every other. -/
theorem jalrLinksAndJumpsUnmasked : Obligations.JalrLinksAndJumpsUnmasked := by
  refine ⟨fun _ rs1 imm s => finishWrite_of_eq (nextPc_eq s) (absoluteTarget_eq s rs1 imm), fun w hop => ⟨?_, ?_⟩⟩
  · intro h3
    exact (decode_of_opcode .jalr hop).trans (selectJalr_of_funct3_zero h3)
  · intro h3 s
    have hill := illegalEncoding_of_jalr_funct3 hop h3
    obtain ⟨hexec, hleaves, -⟩ := malformedExactlyOnTheSevenConditions w s
    exact ⟨hexec.2 hill, hleaves hill⟩

/-- Settles O11: JAL ends by writing the link with `pc + imm` next, its selection takes every word of the opcode, and the
offset is the J immediate. -/
theorem jalLinksAndJumpsRelative : Obligations.JalLinksAndJumpsRelative := by
  refine ⟨fun _ imm s => finishWrite_of_eq (nextPc_eq s) (pcRelative_eq s imm), fun w hop => ?_⟩
  obtain ⟨-, -, -, -, -, hlow, hhigh, heven⟩ := immediatesAreTheSignedFields w
  exact ⟨decode_of_opcode .jal hop, hlow, hhigh, heven⟩

end Sys2Proof.Machine

/-! Proofs of the statements of spec/43_branch.md: the six conditional branches. -/

namespace Sys2Proof.Machine

/-- A BRANCH ends by writing nothing and goes to `pc + imm` or to `pc + 4`, the comparison `c` of the model deciding the
condition `p` of the rule (R110). -/
theorem finishBranch_of_iff {s : State} {imm : Word} {c : Bool} {p : Prop} [Decidable p] (hc : c = true ↔ p) :
    ∃ t, finishNoWrite s (branchNext s c imm) = .next t
      ∧ WritesNothing s t (if p then relativePc s imm else sequentialPc s) :=
  finishNoWrite_of_eq ((branchNext_eq s c imm).trans (if_congr hc rfl rfl))

/-- A word of the BRANCH opcode is decoded by its funct3 alone, on the operands of the B format (R64, R72). -/
theorem decode_of_branch_funct3 {w : Word} {f : BitVec 3} (hop : opcodeOf w = 0x63#7) (h3 : funct3Of w = f) :
    decode w = selectBranch ⟨.B, 0, f, 0, rs1Of w, rs2Of w, immB w⟩ := by
  subst h3
  exact decode_of_opcode .branch hop

/-- Settles O13: `isEqual` decides the equality of the patterns, and the rows of funct3 0 and 1 take the words. -/
theorem beqAndBneBranchOnEquality : Obligations.BeqAndBneBranchOnEquality :=
  ⟨fun _ _ _ _ => ⟨finishBranch_of_iff (isEqual_eq_true_iff ..), finishBranch_of_iff (not_isEqual_eq_true_iff ..)⟩,
    fun _ hop => ⟨decode_of_branch_funct3 hop, decode_of_branch_funct3 hop⟩⟩

/-- Settles O14: `isLessSigned` decides the order of the signed values, its negation the order the other way with equality,
and the rows of funct3 4 and 5 take the words. -/
theorem bltAndBgeBranchOnSignedOrder : Obligations.BltAndBgeBranchOnSignedOrder :=
  ⟨fun _ _ _ _ =>
      ⟨finishBranch_of_iff (isLessSigned_eq_true_iff ..), finishBranch_of_iff (not_isLessSigned_eq_true_iff ..)⟩,
    fun _ hop => ⟨decode_of_branch_funct3 hop, decode_of_branch_funct3 hop⟩⟩

/-- Settles O15: `isLessUnsigned` decides the order of the unsigned values, its negation the order the other way with equality,
and the rows of funct3 6 and 7 take the words. -/
theorem bltuAndBgeuBranchOnUnsignedOrder : Obligations.BltuAndBgeuBranchOnUnsignedOrder :=
  ⟨fun _ _ _ _ =>
      ⟨finishBranch_of_iff (isLessUnsigned_eq_true_iff ..), finishBranch_of_iff (not_isLessUnsigned_eq_true_iff ..)⟩,
    fun _ hop => ⟨decode_of_branch_funct3 hop, decode_of_branch_funct3 hop⟩⟩

end Sys2Proof.Machine

/-! Proofs of the statements of spec/44_load.md: the five loads. -/

namespace Sys2Proof.Machine

/-! ## The value loaded -/

/-- `sext_N` of the low N = n + 1 bits of a word that has no others: a number with bit n set is taken less `2^N` (R18). -/
theorem sext_lowBits {n k : Nat} {v : Word} (hv : v.toNat = k) (hk : k < 2 ^ (n + 1)) :
    sext (v.extractLsb' 0 (n + 1)) = BitVec.ofInt 32 (if k < 2 ^ n then (k : Int) else (k : Int) - (2 ^ (n + 1) : Nat)) := by
  have hlow : (v.extractLsb' 0 (n + 1)).toNat = k := by
    rw [BitVec.extractLsb'_toNat, hv, Nat.shiftRight_zero, Nat.mod_eq_of_lt hk]
  have hcond : 2 * k < 2 ^ (n + 1) ↔ k < 2 ^ n := by rw [pow_succ]; omega
  rw [sext, BitVec.signExtend, BitVec.toInt_eq_toNat_cond, hlow]
  exact congrArg (BitVec.ofInt 32) (if_congr hcond rfl rfl)

/-- `zext_N` of the low N bits of a word that has no others keeps the number (R18). -/
theorem zext_lowBits {n k : Nat} {v : Word} (hv : v.toNat = k) (hk : k < 2 ^ n) :
    zext (v.extractLsb' 0 n) = BitVec.ofNat 32 k := by
  rw [zext, ← BitVec.ofNat_toNat, BitVec.extractLsb'_toNat, hv, Nat.shiftRight_zero, Nat.mod_eq_of_lt hk]

theorem signedByte_assemble (m : Memory) (a : Nat) :
    signedByte (m.assemble a .byte)
      = BitVec.ofInt 32 (if (m.byteAt a).toNat < 128 then ((m.byteAt a).toNat : Int) else ((m.byteAt a).toNat : Int) - 256) :=
  sext_lowBits (n := 7) (assemble_toNat m a .byte) (m.byteAt a).isLt

theorem unsignedByte_assemble (m : Memory) (a : Nat) :
    unsignedByte (m.assemble a .byte) = BitVec.ofNat 32 (m.byteAt a).toNat :=
  zext_lowBits (assemble_toNat m a .byte) (m.byteAt a).isLt

/-- The number of a little-endian halfword has 16 bits (R43). -/
theorem halfword_lt (b0 b1 : Byte) : b0.toNat + 256 * b1.toNat < 2 ^ 16 := by
  have h0 := b0.isLt
  have h1 := b1.isLt
  omega

theorem signedHalf_assemble {m : Memory} {a h : Nat} (hh : (m.byteAt a).toNat + 256 * (m.byteAt (a + 1)).toNat = h) :
    signedHalf (m.assemble a .half) = BitVec.ofInt 32 (if h < 32768 then (h : Int) else (h : Int) - 65536) :=
  sext_lowBits (n := 15) ((assemble_toNat m a .half).trans hh) (hh ▸ halfword_lt ..)

theorem unsignedHalf_assemble {m : Memory} {a h : Nat} (hh : (m.byteAt a).toNat + 256 * (m.byteAt (a + 1)).toNat = h) :
    unsignedHalf (m.assemble a .half) = BitVec.ofNat 32 h :=
  zext_lowBits ((assemble_toNat m a .half).trans hh) (hh ▸ halfword_lt ..)

theorem assemble_word_eq (m : Memory) (a : Nat) :
    m.assemble a .word = BitVec.ofNat 32 ((m.byteAt a).toNat + 256 * (m.byteAt (a + 1)).toNat
      + 65536 * (m.byteAt (a + 2)).toNat + 16777216 * (m.byteAt (a + 3)).toNat) := by
  calc m.assemble a .word = BitVec.ofNat 32 (m.assemble a .word).toNat := by rw [BitVec.ofNat_toNat, BitVec.setWidth_eq]
    _ = _ := congrArg (BitVec.ofNat 32) (assemble_toNat m a .word)

/-! ## What a load does, and its words -/

/-- An instruction that ends as a LOAD of width `n`, the value read made into the register's by `f`, is a LOAD of those bytes
(R120). -/
theorem loadResult_of_finishLoad {i : Instr} {s : State} {rd rs1 : RegIdx} {imm v : Word} (n : Width) {f : Word → Word}
    (hexec : exec i s = finishLoad s rd ((s.load (effectiveAddress s rs1 imm) n).map f))
    (hv : f (s.mem.assemble (effectiveAddress s rs1 imm).toNat n) = v) :
    LoadResult i s rd rs1 imm (widthBytes n) v (sequentialPc s) := by
  subst hv
  refine ⟨effectiveAddress_toNat s rs1 imm, fun hin => ?_, fun hout => ?_⟩
  · rw [hexec]
    exact finishLoad_spec s rd _ n f hin
  · rw [hexec]
    exact finishLoad_outside s rd _ n f hout

/-- LW writes the value read as it is (R123). -/
theorem exec_lw_eq_map_id (rd rs1 : RegIdx) (imm : Word) (s : State) :
    exec (.lw rd rs1 imm) s = finishLoad s rd ((s.load (effectiveAddress s rs1 imm) .word).map id) :=
  congrArg (finishLoad s rd) (congrFun Option.map_id _).symm

/-- A word of the LOAD opcode is decoded by its funct3 alone, on the operands of the I format (R64, R72). -/
theorem decode_of_load_funct3 {w : Word} {f : BitVec 3} (hop : opcodeOf w = 0x03#7) (h3 : funct3Of w = f) :
    decode w = selectLoad ⟨.I, 0, f, rdOf w, rs1Of w, 0, immI w⟩ := by
  subst h3
  exact decode_of_opcode .load hop

/-- Settles O16: the byte read has 8 bits, which LB extends from bit 7 and LBU with zeros, and the rows of funct3 0 and 4 take
the words. -/
theorem byteLoadsExtendTheByte : Obligations.ByteLoadsExtendTheByte :=
  ⟨fun _ _ _ _ => ⟨loadResult_of_finishLoad .byte rfl (signedByte_assemble ..),
      loadResult_of_finishLoad .byte rfl (unsignedByte_assemble ..)⟩,
    fun _ hop => ⟨decode_of_load_funct3 hop, decode_of_load_funct3 hop⟩⟩

/-- Settles O17: the halfword read has 16 bits, which LH extends from bit 15 and LHU with zeros, and the rows of funct3 1 and 5
take the words. -/
theorem halfLoadsExtendTheHalfword : Obligations.HalfLoadsExtendTheHalfword :=
  ⟨fun _ _ _ _ => ⟨loadResult_of_finishLoad .half rfl (signedHalf_assemble rfl),
      loadResult_of_finishLoad .half rfl (unsignedHalf_assemble rfl)⟩,
    fun _ hop => ⟨decode_of_load_funct3 hop, decode_of_load_funct3 hop⟩⟩

/-- Settles O18: the word read fills the register, and the row of funct3 2 takes the words. -/
theorem lwLoadsTheLittleEndianWord : Obligations.LwLoadsTheLittleEndianWord :=
  ⟨fun rd rs1 imm s => loadResult_of_finishLoad .word (exec_lw_eq_map_id rd rs1 imm s) (assemble_word_eq ..),
    fun _ hop => decode_of_load_funct3 hop⟩

end Sys2Proof.Machine

/-! Proofs of the statements of spec/45_store.md: the three stores. -/

namespace Sys2Proof.Machine

/-- An instruction that ends as a STORE of width `n` of `x[rs2]` is a STORE of that register's low bytes (R130). -/
theorem storeResult_of_finishStore {i : Instr} {s : State} {rs1 rs2 : RegIdx} {imm : Word} (n : Width)
    (hexec : exec i s = finishStore s (effectiveAddress s rs1 imm) n (s.readReg rs2)) :
    StoreResult i s rs1 rs2 imm (widthBytes n) (sequentialPc s) := by
  refine ⟨effectiveAddress_toNat s rs1 imm, fun hin => ?_, fun hout => ?_⟩
  · rw [hexec]
    exact finishStore_spec s _ n _ hin
  · rw [hexec]
    exact finishStore_outside s _ n _ hout

/-- A word of the STORE opcode is decoded by its funct3 alone, on the operands of the S format (R64, R72). -/
theorem decode_of_store_funct3 {w : Word} {f : BitVec 3} (hop : opcodeOf w = 0x23#7) (h3 : funct3Of w = f) :
    decode w = selectStore ⟨.S, 0, f, 0, rs1Of w, rs2Of w, immS w⟩ := by
  subst h3
  exact decode_of_opcode .store hop

/-- Settles O19: each store ends as a STORE of its width, and the rows of funct3 0, 1 and 2 take the words. -/
theorem storesWriteTheLowBytesLittleEndian : Obligations.StoresWriteTheLowBytesLittleEndian :=
  ⟨fun _ _ _ _ => ⟨storeResult_of_finishStore .byte rfl, storeResult_of_finishStore .half rfl,
      storeResult_of_finishStore .word rfl⟩,
    fun _ hop => ⟨decode_of_store_funct3 hop, decode_of_store_funct3 hop, decode_of_store_funct3 hop⟩⟩

end Sys2Proof.Machine

/-! Proofs of the statements of spec/46_alu_imm.md: the eight instructions on a register and an immediate. -/

namespace Sys2Proof.Machine

/-! ## What an OP-IMM instruction does, and its words -/

/-- An ALU instruction writes its result, given as the rule words it, and goes on at `pc + 4` (R140, R155). -/
theorem finishAlu_of_eq {s : State} {rd : RegIdx} {v v' : Word} (hv : v = v') :
    ∃ t, finishAlu s rd v = .next t ∧ WritesRegister s t rd v' (sequentialPc s) :=
  finishWrite_of_eq hv (nextPc_eq s)

/-- A word of the OP-IMM opcode is decoded by its funct3 alone, on the operands of the I format: `w[31:25]` has no part in the
choice (R64, R72, R140). -/
theorem decode_of_opImm_funct3 {w : Word} {f : BitVec 3} (hop : opcodeOf w = 0x13#7) (h3 : funct3Of w = f) :
    decode w = selectOpImm ⟨.I, 0, f, rdOf w, rs1Of w, 0, immI w⟩ := by
  subst h3
  exact decode_of_opcode .opImm hop

/-- Settles O20: the ALU's addition is the sum modulo 2^32, and the row of funct3 0 takes the words. -/
theorem addiAddsModuloTwoToThe32 : Obligations.AddiAddsModuloTwoToThe32 :=
  ⟨fun _ _ _ _ => finishAlu_of_eq (word_add_eq ..), fun _ hop => decode_of_opImm_funct3 hop⟩

/-- Settles O21: the ALU's comparisons are the orders of the signed and of the unsigned values, and the rows of funct3 2 and 3
take the words. -/
theorem sltiAndSltiuCompareWithTheImmediate : Obligations.SltiAndSltiuCompareWithTheImmediate :=
  ⟨fun _ _ _ _ => ⟨finishAlu_of_eq (aluSlt_eq ..), finishAlu_of_eq (aluSltu_eq ..)⟩,
    fun _ hop => ⟨decode_of_opImm_funct3 hop, decode_of_opImm_funct3 hop⟩⟩

/-- Settles O22: the ALU combines the bits of the numbers, and the rows of funct3 4, 6 and 7 take the words. -/
theorem xoriOriAndiCombineBits : Obligations.XoriOriAndiCombineBits :=
  ⟨fun _ _ _ _ => ⟨finishAlu_of_eq (aluXor_eq ..), finishAlu_of_eq (aluOr_eq ..), finishAlu_of_eq (aluAnd_eq ..)⟩,
    fun _ hop => ⟨decode_of_opImm_funct3 hop, decode_of_opImm_funct3 hop, decode_of_opImm_funct3 hop⟩⟩

/-- Settles O23: the ALU's shifts multiply and divide by the power of two that the low five bits give, and the rows of funct3 1
and 5 take every word. -/
theorem slliAndSrliShiftByTheLowFiveBits : Obligations.SlliAndSrliShiftByTheLowFiveBits :=
  ⟨fun _ _ _ _ => ⟨finishAlu_of_eq (aluSll_eq ..), finishAlu_of_eq (aluSrl_eq ..)⟩,
    fun _ hop => ⟨decode_of_opImm_funct3 hop, decode_of_opImm_funct3 hop⟩⟩

/-! ## The encoding of SRAI -/

/-- The I-immediate of a word with the `w[31:25]` of SRAI is 0x400 above the amount in `w[24:20]` (R65, R149). -/
theorem immI_of_funct7_srai {w : Word} (h7 : funct7Of w = 0b0100000) : immI w = BitVec.ofNat 32 (0x400 + (rs2Of w).val) := by
  have hfield : w.toNat / 33554432 % 128 = 32 := (funct7Of_toNat w).symm.trans (congrArg BitVec.toNat h7)
  have hw := w.isLt
  apply BitVec.eq_of_toNat_eq
  rw [immI_toNat, if_pos (by omega), rs2Of_val, BitVec.toNat_ofNat]
  omega

/-- The low five bits of that immediate are the amount (R148, R149). -/
theorem sraiImmediate_mod_32 (r : RegIdx) : (BitVec.ofNat 32 (0x400 + r.val)).toNat % 32 = r.val := by
  have hr := r.isLt
  rw [BitVec.toNat_ofNat]
  omega

/-- The marker before an instruction takes no part in what it leaves (R27). -/
theorem writesRegister_of_clearDirty {s t : State} {rd : RegIdx} {v next : Word}
    (h : WritesRegister s.clearDirty t rd v next) : WritesRegister s t rd v next :=
  ⟨h.dest, h.others, h.pc, h.dirty, h.bytes, h.size⟩

/-- The text of a word that decodes is the text of its instruction (R180). -/
theorem disassemble_of_decode {w : Word} {i : Instr} (h : decode w = .ok i) : disassemble w = instrText i := by
  rw [disassemble, h]

/-- A number below 2^31 is printed as it is (R184). -/
theorem signedDecimal_ofNat {n : Nat} (hn : n < 2147483648) : signedDecimal (BitVec.ofNat 32 n) = Nat.repr n := by
  have hint : (BitVec.ofNat 32 n).toInt = n := by
    rw [word_toInt, BitVec.toNat_ofNat, Nat.mod_eq_of_lt (by omega), if_pos hn]
  rw [signedDecimal, hint]
  rfl

/-- SRLI is printed as its name, the two registers and the immediate (R185, R189). -/
theorem instrText_srli (rd rs1 : RegIdx) (imm : Word) :
    instrText (.srli rd rs1 imm) = "srli " ++ abiName rd ++ ", " ++ abiName rs1 ++ ", " ++ signedDecimal imm := by
  have hname : mnemonicText (.srli rd rs1 imm) ++ " " = "srli " := rfl
  rw [instrText, hname, operandText, operandsImmediate]
  simp only [String.append_assoc]

/-- Settles O24: the row of funct3 5 takes the word whatever `w[31:25]` is, with the immediate 0x400 + shamt, whose low five
bits alone are the amount of SRLI and the whole of which is printed. -/
theorem sraiEncodingShiftsLogically : Obligations.SraiEncodingShiftsLogically := by
  intro w hop h3 h7
  obtain ⟨hexec, hwords⟩ := slliAndSrliShiftByTheLowFiveBits
  have hdec := (hwords w hop).2 h3
  rw [immI_of_funct7_srai h7] at hdec
  refine ⟨hdec, fun s => ?_, ?_⟩
  · obtain ⟨t, ht, hwrites⟩ := (hexec _ _ _ s.clearDirty).2
    rw [sraiImmediate_mod_32] at hwrites
    exact ⟨t, (executeWord_of_decode s hdec).trans ht, writesRegister_of_clearDirty hwrites⟩
  · rw [disassemble_of_decode hdec, instrText_srli, signedDecimal_ofNat (by omega)]

end Sys2Proof.Machine

/-! Proofs of the statements of spec/47_alu_reg.md: the ten instructions on two registers. -/

namespace Sys2Proof.Machine

/-- A word of the OP opcode is decoded by its funct7 and funct3 alone, on the operands of the R format (R64, R72, R155). -/
theorem decode_of_op_funct {w : Word} {f7 : BitVec 7} {f3 : BitVec 3} (hop : opcodeOf w = 0x33#7) (h7 : funct7Of w = f7)
    (h3 : funct3Of w = f3) : decode w = selectOp ⟨.R, f7, f3, rdOf w, rs1Of w, rs2Of w, 0⟩ := by
  subst h7 h3
  exact decode_of_opcode .op hop

/-- Settles O25: the ALU's sum and difference are those modulo 2^32, and the rows of funct3 0 take the words, ADD with funct7 0
and SUB with funct7 0b0100000. -/
theorem addAndSubAreModuloTwoToThe32 : Obligations.AddAndSubAreModuloTwoToThe32 :=
  ⟨fun _ _ _ _ => ⟨finishAlu_of_eq (word_add_eq ..), finishAlu_of_eq (word_sub_eq ..)⟩,
    fun _ hop h3 => ⟨fun h7 => decode_of_op_funct hop h7 h3, fun h7 => decode_of_op_funct hop h7 h3⟩⟩

/-- Settles O26: the ALU's shifts multiply and divide by the power of two that the low five bits give, and the rows of funct7 0
with funct3 1 and 5 take the words. -/
theorem sllAndSrlShiftByTheLowFiveBits : Obligations.SllAndSrlShiftByTheLowFiveBits :=
  ⟨fun _ _ _ _ => ⟨finishAlu_of_eq (aluSll_eq ..), finishAlu_of_eq (aluSrl_eq ..)⟩,
    fun _ hop h7 => ⟨decode_of_op_funct hop h7, decode_of_op_funct hop h7⟩⟩

/-- Settles O27: the arithmetic shift is the division of the signed value rounded down, and the row of funct7 0b0100000 with
funct3 5 takes the words. -/
theorem sraDividesTheSignedValueDown : Obligations.SraDividesTheSignedValueDown :=
  ⟨fun _ _ _ _ => finishAlu_of_eq (aluSra_eq ..), fun _ hop h7 => decode_of_op_funct hop h7⟩

/-- Settles O28: the ALU's comparisons are the orders of the signed and of the unsigned values, and the rows of funct7 0 with
funct3 2 and 3 take the words. -/
theorem sltAndSltuCompareRegisters : Obligations.SltAndSltuCompareRegisters :=
  ⟨fun _ _ _ _ => ⟨finishAlu_of_eq (aluSlt_eq ..), finishAlu_of_eq (aluSltu_eq ..)⟩,
    fun _ hop h7 => ⟨decode_of_op_funct hop h7, decode_of_op_funct hop h7⟩⟩

/-- Settles O29: the ALU combines the bits of the numbers, and the rows of funct7 0 with funct3 4, 6 and 7 take the words. -/
theorem xorOrAndCombineBits : Obligations.XorOrAndCombineBits :=
  ⟨fun _ _ _ _ => ⟨finishAlu_of_eq (aluXor_eq ..), finishAlu_of_eq (aluOr_eq ..), finishAlu_of_eq (aluAnd_eq ..)⟩,
    fun _ hop h7 => ⟨decode_of_op_funct hop h7, decode_of_op_funct hop h7, decode_of_op_funct hop h7⟩⟩

end Sys2Proof.Machine

/-! Proofs of the statements of spec/48_unimplemented.md: the opcodes outside the nine groups. -/

namespace Sys2Proof.Machine

/-- An `execute` that faults answers the fault and leaves the state before it with the marker cleared (R200, R203). -/
theorem command_execute_of_fault {w : Word} {s : State} {f : Fault} (h : executeWord w s = .fault f) :
    command (.execute w) s = (s.afterFault, .fault f) := congrArg (settle s) h

/-- The opcodes of MISC-MEM and SYSTEM are none of the nine (R171, R172). -/
theorem notMem_groupOpcodes_of_fence_or_system {op : BitVec 7} (h : op = 0x0F#7 ∨ op = 0x73#7) : op ∉ groupOpcodes := by
  rcases h with rfl | rfl <;> decide

/-- Settles O30: an opcode outside the nine is the first of the seven conditions. -/
theorem opcodesOutsideTheNineGroupsFault : Obligations.OpcodesOutsideTheNineGroupsFault := by
  have houtside (w : Word) (s : State) (hop : opcodeOf w ∉ groupOpcodes) :
      executeWord w s = .fault .malformedInstruction ∧ FaultLeaves s (command (.execute w) s).1
        ∧ (command (.execute w) s).2 = .fault .malformedInstruction ∧ disassemble w = "bad instruction" := by
    obtain ⟨hexec, hleaves, htext⟩ := malformedExactlyOnTheSevenConditions w s
    have hfault := hexec.2 (.inl hop)
    exact ⟨hfault, hleaves (.inl hop), congrArg Prod.snd (command_execute_of_fault hfault), htext.2 (.inl hop)⟩
  refine ⟨houtside, fun w s hop => ?_⟩
  obtain ⟨hfault, hleaves, -⟩ := houtside w s (notMem_groupOpcodes_of_fence_or_system hop)
  exact ⟨hfault, hleaves⟩

end Sys2Proof.Machine

/-! Proofs of the statements of spec/49_disassembler.md: the text of every word, and that no two instruction words share one. -/

namespace Sys2Proof.Machine

/-! ## The text of a decoded word, by its group -/

/-- The operand text of a group's instruction, from the record it was selected by (R185 to R191). -/
def groupText : Group → DecodedRecord → String
  | .lui, d => operandsUpper d.rd d.imm
  | .auipc, d => operandsUpper d.rd d.imm
  | .jal, d => operandsJump d.rd d.imm
  | .jalr, d => operandsMemory d.rd d.rs1 d.imm
  | .branch, d => operandsImmediate d.rs1 d.rs2 d.imm
  | .load, d => operandsMemory d.rd d.rs1 d.imm
  | .store, d => operandsMemory d.rs2 d.rs1 d.imm
  | .opImm, d => operandsImmediate d.rd d.rs1 d.imm
  | .op, d => operandsRegister d.rd d.rs1 d.rs2

/-- Every instruction of a group prints its operands in the group's layout. -/
theorem operandText_of_select {g : Group} {d : DecodedRecord} {i : Instr} (h : select g d = .ok i) :
    operandText i = groupText g d := by
  cases g with
  | lui | auipc | jal => cases h; rfl
  | jalr | branch | load | store | opImm =>
    simp only [select, selectJalr, selectBranch, selectLoad, selectStore, selectOpImm] at h
    split at h <;> cases h <;> rfl
  | op =>
    simp only [select, selectOp, selectOpPlain, selectOpAlternate] at h
    split at h
    case h_1 | h_2 => split at h <;> cases h <;> rfl
    case h_3 => cases h

/-- A record with the selecting fields alone. -/
def selectorRecord (f7 : BitVec 7) (f3 : BitVec 3) : DecodedRecord := ⟨.R, f7, f3, 0, 0, 0, 0⟩

section
variable {w : Word} {m : String} (g : Group) (hop : opcodeOf w = groupOpcode g)
include hop

/-- A word prints as the mnemonic its selecting fields have in its group, then its operands in the group's layout (R185). -/
theorem disassemble_of_selectors {f7 : BitVec 7} {f3 : BitVec 3} (h7 : (extract (groupFormat g) w).funct7 = f7)
    (h3 : (extract (groupFormat g) w).funct3 = f3) (hm : (select g (selectorRecord f7 f3)).map mnemonicText = .ok m) :
    disassemble w = m ++ " " ++ groupText g (extract (groupFormat g) w) := by
  have hmap := (map_mnemonicText_select_congr (e := selectorRecord f7 f3) g h3 h7).trans hm
  rw [← decode_of_opcode g hop] at hmap
  obtain ⟨i, hi, rfl⟩ := (map_decode_eq_ok_iff ..).1 hmap
  rw [disassemble_of_decode hi, instrText, operandText_of_select ((decode_of_opcode g hop).symm.trans hi)]

/-- `disassemble_of_selectors` for a group without funct7, from the list of its mnemonics by funct3. -/
theorem disassemble_of_funct3_row {rows : List (BitVec 3 × String)} (h7 : (extract (groupFormat g) w).funct7 = 0)
    (hrow : ((extract (groupFormat g) w).funct3, m) ∈ rows)
    (hrows : ∀ p ∈ rows, (select g (selectorRecord 0 p.1)).map mnemonicText = .ok p.2) :
    disassemble w = m ++ " " ++ groupText g (extract (groupFormat g) w) :=
  disassemble_of_selectors g hop h7 rfl (hrows _ hrow)

/-- `disassemble_of_selectors` from the list of a group's mnemonics by funct7 and funct3. -/
theorem disassemble_of_funct7_row {rows : List (BitVec 7 × BitVec 3 × String)}
    (hrow : ((extract (groupFormat g) w).funct7, (extract (groupFormat g) w).funct3, m) ∈ rows)
    (hrows : ∀ p ∈ rows, (select g (selectorRecord p.1 p.2.1)).map mnemonicText = .ok p.2.2) :
    disassemble w = m ++ " " ++ groupText g (extract (groupFormat g) w) :=
  disassemble_of_selectors g hop rfl rfl (hrows _ hrow)

end

/-! ## The layouts, written out -/

theorem append_operandsUpper (m : String) (rd : RegIdx) (imm : Word) :
    m ++ " " ++ operandsUpper rd imm = m ++ " " ++ abiName rd ++ ", " ++ upperHex imm := by
  simp only [operandsUpper, String.append_assoc]

theorem append_operandsJump (m : String) (rd : RegIdx) (imm : Word) :
    m ++ " " ++ operandsJump rd imm = m ++ " " ++ abiName rd ++ ", " ++ signedDecimal imm := by
  simp only [operandsJump, String.append_assoc]

theorem append_operandsMemory (m : String) (r base : RegIdx) (imm : Word) :
    m ++ " " ++ operandsMemory r base imm
      = m ++ " " ++ abiName r ++ ", " ++ signedDecimal imm ++ "(" ++ abiName base ++ ")" := by
  simp only [operandsMemory, String.append_assoc]

theorem append_operandsImmediate (m : String) (r1 r2 : RegIdx) (imm : Word) :
    m ++ " " ++ operandsImmediate r1 r2 imm
      = m ++ " " ++ abiName r1 ++ ", " ++ abiName r2 ++ ", " ++ signedDecimal imm := by
  simp only [operandsImmediate, String.append_assoc]

theorem append_operandsRegister (m : String) (r1 r2 r3 : RegIdx) :
    m ++ " " ++ operandsRegister r1 r2 r3
      = m ++ " " ++ abiName r1 ++ ", " ++ abiName r2 ++ ", " ++ abiName r3 := by
  simp only [operandsRegister, String.append_assoc]

/-- The decimal form of R184: a minus for a negative value, then the digits of its absolute value. -/
theorem signedDecimal_eq (imm : Word) :
    signedDecimal imm = (if imm.toInt < 0 then "-" else "") ++ Nat.repr imm.toInt.natAbs := by
  unfold signedDecimal
  cases imm.toInt with
  | ofNat n => simp [Int.repr, Int.not_lt.2 (Int.natCast_nonneg n)]
  | negSucc n => simp [Int.repr, Int.negSucc_lt_zero]

/-- The hexadecimal form of R184: the twenty bits above the low twelve are the quotient by 2^12. -/
theorem upperHex_eq (imm : Word) : upperHex imm = "0x" ++ String.ofList (Nat.toDigits 16 (imm.toNat / 4096)) := by
  have hquot : (imm.extractLsb' 12 20).toNat = imm.toNat / 4096 := by
    rw [field_toNat]
    exact Nat.mod_eq_of_lt (by omega)
  rw [upperHex, hquot]

/-- Settles O59: each group prints the mnemonic of its selecting fields and its own layout, each list of the statement being
rows of the group's selection; the names and the ten words are evaluated. -/
theorem disassembledTextFollowsTheLayouts : Obligations.DisassembledTextFollowsTheLayouts := by
  refine ⟨by decide, signedDecimal_eq, upperHex_eq, fun w m => ⟨?_, ?_, ?_, ?_, ?_, ?_, ?_, ?_, ?_⟩, by decide⟩
  · obtain ⟨-, -, htext⟩ := malformedExactlyOnTheSevenConditions w State.reset
    exact htext.2
  · intro h
    simp only [List.mem_cons, Prod.mk.injEq, List.not_mem_nil, or_false] at h
    rcases h with ⟨hop, rfl⟩ | ⟨hop, rfl⟩
    · exact (disassemble_of_selectors .lui hop rfl rfl rfl).trans (append_operandsUpper ..)
    · exact (disassemble_of_selectors .auipc hop rfl rfl rfl).trans (append_operandsUpper ..)
  · intro hop
    exact (disassemble_of_selectors .jal hop rfl rfl rfl).trans (append_operandsJump "jal" ..)
  · intro hop h3
    exact (disassemble_of_selectors .jalr hop rfl h3 rfl).trans (append_operandsMemory "jalr" ..)
  · intro hop hrow
    exact (disassemble_of_funct3_row .branch hop rfl hrow (by decide)).trans (append_operandsImmediate ..)
  · intro hop hrow
    exact (disassemble_of_funct3_row .load hop rfl hrow (by decide)).trans (append_operandsMemory ..)
  · intro hop hrow
    exact (disassemble_of_funct3_row .store hop rfl hrow (by decide)).trans (append_operandsMemory ..)
  · intro hop hrow
    exact (disassemble_of_funct3_row .opImm hop rfl hrow (by decide)).trans (append_operandsImmediate ..)
  · intro hop hrow
    exact (disassemble_of_funct7_row .op hop hrow (by decide)).trans (append_operandsRegister ..)

/-! ## Reading a word off its text -/

/-- In one group, words with the same selecting fields and the same operand text are the same word: each layout tells apart the
operands its format has. -/
theorem encodeRecord_eq_of_groupText {g : Group} {d e : DecodedRecord} (op : BitVec 7)
    (hd : immFits (groupFormat g) d.imm = true) (he : immFits (groupFormat g) e.imm = true)
    (h3 : d.funct3 = e.funct3) (h7 : d.funct7 = e.funct7) (h : groupText g d = groupText g e) :
    encodeRecord (groupFormat g) d op = encodeRecord (groupFormat g) e op := by
  cases g with
  | lui | auipc =>
    obtain ⟨hrd, himm⟩ := operandsUpper_injective hd he h
    simp only [groupFormat, encodeRecord, hrd, himm]
  | jal =>
    obtain ⟨hrd, himm⟩ := operandsJump_injective h
    simp only [groupFormat, encodeRecord, hrd, himm]
  | jalr | load | store =>
    obtain ⟨hr, hbase, himm⟩ := operandsMemory_injective h
    simp only [groupFormat, encodeRecord, h3, hr, hbase, himm]
  | branch | opImm =>
    obtain ⟨hr1, hr2, himm⟩ := operandsImmediate_injective h
    simp only [groupFormat, encodeRecord, h3, hr1, hr2, himm]
  | op =>
    obtain ⟨hrd, hr1, hr2⟩ := operandsRegister_injective h
    simp only [groupFormat, encodeRecord, h3, h7, hrd, hr1, hr2]

/-- Words that decode to instructions of one mnemonic agree under the mask of their format: the mnemonic's row has the bits. -/
theorem and_formatMask_of_mnemonicText_eq {w v : Word} {i j : Instr} (hw : decode w = .ok i) (hv : decode v = .ok j)
    (h : mnemonicText i = mnemonicText j) :
    w &&& formatMask (groupFormat i.group) = v &&& formatMask (groupFormat i.group) := by
  obtain ⟨-, rfl⟩ := encodeOfDecodeIsTheWord w i hw
  obtain ⟨-, rfl⟩ := encodeOfDecodeIsTheWord v j hv
  have hrow : rowOf i = rowOf j := eq_of_mnemonic_eq (rowOf_mem_opcodeTable i) (rowOf_mem_opcodeTable j) h
  have hmask : formatMask (groupFormat i.group) = formatMask (groupFormat j.group) := congrArg TableRow.mask hrow
  exact (congrArg TableRow.bits hrow).trans (by rw [hmask]; rfl)

/-- The text of an instruction word determines the word (R192). -/
theorem eq_of_instrText_eq {w v : Word} {i j : Instr} (hw : decode w = .ok i) (hv : decode v = .ok j)
    (h : instrText i = instrText j) : w = v := by
  obtain ⟨hmnemonic, hoperands⟩ := instrText_parts h
  obtain ⟨hop, h3, h7⟩ := (and_formatMask_eq_iff ..).1 (and_formatMask_of_mnemonicText_eq hw hv hmnemonic)
  obtain ⟨hroute, -⟩ := decode_ok hw
  have hi := (decode_of_route hroute).symm.trans hw
  have hj := (decode_of_route (hop ▸ hroute)).symm.trans hv
  rw [operandText_of_select hi, operandText_of_select hj] at hoperands
  calc w = encodeRecord _ (extract _ w) (opcodeOf w) := (encodeRecord_extract (groupFormat i.group) w).symm
    _ = encodeRecord _ (extract _ v) (opcodeOf w) :=
      encodeRecord_eq_of_groupText _ (immFits_extract ..) (immFits_extract ..) h3 h7 hoperands
    _ = encodeRecord _ (extract _ v) (opcodeOf v) := by rw [hop]
    _ = v := encodeRecord_extract _ v

theorem exists_decode_of_disassemble_ne {w : Word} (h : disassemble w ≠ "bad instruction") : ∃ i, decode w = .ok i := by
  cases hw : decode w with
  | ok i => exact ⟨i, rfl⟩
  | error e => exact absurd ((disassemble_eq_badInstruction_iff w).2 ⟨e, hw⟩) h

/-- Settles O60: a word that prints as another's text, which is not the sentinel, decodes too, and the text determines the
word. -/
theorem disassemblerIsInjectiveOnInstructions : Obligations.DisassemblerIsInjectiveOnInstructions := by
  intro w v hne hw htext
  obtain ⟨i, hi⟩ := exists_decode_of_disassemble_ne hw
  obtain ⟨j, hj⟩ := exists_decode_of_disassemble_ne (htext ▸ hw)
  rw [disassemble_of_decode hi, disassemble_of_decode hj] at htext
  exact hne (eq_of_instrText_eq hi hj htext)

end Sys2Proof.Machine

/-! Proofs of the statements of spec/60_exceptions.md: what faults, and what a fault leaves. -/

namespace Sys2Proof.Machine

/-! ## The causes of the faults -/

/-- An instruction whose data access is out of range is out of bounds (R202). -/
theorem exec_of_dataOutside {i : Instr} {s : State} (h : DataOutside i s) : exec i s = .fault .outOfBounds := by
  obtain ⟨a, n, hx, hout⟩ := h
  cases i with
  | lb | lbu => cases hx; exact finishLoad_outside s _ _ .byte _ hout
  | lh | lhu => cases hx; exact finishLoad_outside s _ _ .half _ hout
  | lw => cases hx; exact (exec_lw_eq_map_id ..).trans (finishLoad_outside s _ _ .word id hout)
  | sb => cases hx; exact finishStore_outside s _ .byte _ hout
  | sh => cases hx; exact finishStore_outside s _ .half _ hout
  | sw => cases hx; exact finishStore_outside s _ .word _ hout
  | _ => cases hx

/-- An instruction completes exactly when its data access, if it has one, is in range. -/
theorem exec_next_iff (i : Instr) (s : State) : (∃ t, exec i s = .next t) ↔ ¬ DataOutside i s := by
  refine ⟨fun ⟨t, ht⟩ hout => ?_, fun hin => ?_⟩
  · cases ht.symm.trans (exec_of_dataOutside hout)
  · exact (exec_next_or_outOfBounds i s).resolve_right fun hf => hin (dataOutside_of_exec_fault hf)

/-- `execute` is out of bounds exactly when the word's data access is out of range (R202). -/
theorem executeWord_eq_outOfBounds_iff (w : Word) (s : State) :
    executeWord w s = .fault .outOfBounds ↔ ∃ i, decode w = .ok i ∧ DataOutside i s := by
  refine ⟨dataOutside_of_executeWord_outOfBounds, fun ⟨i, hi, hout⟩ => ?_⟩
  exact (executeWord_of_decode s hi).trans (exec_of_dataOutside ((dataOutside_clearDirty i s).2 hout))

theorem executeWord_next_iff (w : Word) (s : State) :
    (∃ t, executeWord w s = .next t) ↔ ∃ i, decode w = .ok i ∧ ¬ DataOutside i s := by
  rcases executeWord_cases w s with ⟨e, he, ho⟩ | ⟨i, hi, ho⟩
  · simp [he, ho]
  · rw [ho, exec_next_iff, dataOutside_clearDirty, hi]
    exact ⟨fun hin => ⟨i, rfl, hin⟩, fun ⟨_, hj, hin⟩ => Except.ok.inj hj ▸ hin⟩

theorem step_of_pc_outside {s : State} (h : s.mem.size < s.pc.toNat + 4) : step s = .fault .outOfBounds :=
  step_of_fetch_eq_none ((fetch_eq_none_iff s).2 h)

/-- Settles O34: in range a step is `execute` of the word at `pc`, out of range its fetch faults first. -/
theorem faultCausesAreComplete : Obligations.FaultCausesAreComplete := by
  have hmalformed (w : Word) (s : State) : executeWord w s = .fault .malformedInstruction ↔ IllegalEncoding w :=
    (malformedExactlyOnTheSevenConditions w s).1
  refine ⟨fun w s => ⟨hmalformed w s, executeWord_eq_outOfBounds_iff w s⟩, fun s => ?_⟩
  rcases Nat.lt_or_ge s.mem.size (s.pc.toNat + 4) with hout | hin
  · simp [step_of_pc_outside hout, hout, Nat.not_le.2 hout]
  · rw [step_eq_executeWord_wordAtPc hin, hmalformed, executeWord_eq_outOfBounds_iff]
    simp [hin, Nat.not_lt.2 hin]

/-- Settles O35: a step out of range never completes, and one in range is `execute` of the word at `pc`. -/
theorem stepCompletesUnlessAFaultCauseHolds : Obligations.StepCompletesUnlessAFaultCauseHolds := by
  intro s
  rcases Nat.lt_or_ge s.mem.size (s.pc.toNat + 4) with hout | hin
  · simp [step_of_pc_outside hout, Nat.not_le.2 hout]
  · rw [step_eq_executeWord_wordAtPc hin, executeWord_next_iff]
    exact (and_iff_right hin).symm

/-! ## What a faulted command leaves -/

/-- Only a fault is answered as a fault. -/
theorem eq_fault_of_settle_reply {s : State} {o : Host.Outcome State Fault Refusal} {f : Fault}
    (h : (settle s o).2 = .fault f) : o = .fault f := by
  cases o with
  | next t => exact Reply.noConfusion h
  | fault g => exact congrArg Host.Outcome.fault (Reply.fault.inj h)
  | refused r => exact Reply.noConfusion h

/-- A faulted command leaves the state before it with the marker cleared (R203). -/
theorem command_fst_of_fault_reply {c : Command} {s : State} {f : Fault} (h : (command c s).2 = .fault f) :
    (command c s).1 = s.afterFault := by
  cases c with
  | reset => exact Reply.noConfusion h
  | step => exact congrArg (fun o => (settle s o).1) (eq_fault_of_settle_reply h)
  | execute w => exact congrArg (fun o => (settle s o).1) (eq_fault_of_settle_reply h)
  | disassemble w => exact Reply.noConfusion h

/-- Settles O37. -/
theorem faultedCommandLeavesTheStateUnchanged : Obligations.FaultedCommandLeavesTheStateUnchanged := by
  intro c s f h
  rw [command_fst_of_fault_reply h]
  exact afterFault_faultLeaves s

/-- Settles O38: the fault changed nothing but the marker, which no step reads. -/
theorem repeatedStepFaultsAgainInTheSameWay : Obligations.RepeatedStepFaultsAgainInTheSameWay := by
  intro s f h
  have hagain : step s.afterFault = .fault f := (step_withDirty s none).trans (eq_fault_of_settle_reply h)
  rw [command_fst_of_fault_reply h]
  exact congrArg (settle s.afterFault) hagain

end Sys2Proof.Machine

/-! Proofs of the statements of spec/70_reset_and_hazards.md: `reset()`, the boot sequence, and the host's load of a word. -/

namespace Sys2Proof.Machine

/-! ## Reset and boot -/

@[simp] theorem readReg_resetCommand (s : State) (r : RegIdx) : s.resetCommand.readReg r = 0 := by
  simp [State.readReg]

/-- Settles O52: the state that `reset()` leaves has its registers and its marker at the values a second one gives them. -/
theorem resetCommandZeroesRegistersOnly : Obligations.ResetCommandZeroesRegistersOnly := fun s =>
  ⟨readReg_resetCommand s, rfl, rfl, rfl, fun _ => Reply.noConfusion, rfl⟩

@[simp] theorem writeEntryRegs_pc (s : State) (l : List (RegIdx × Word)) : (writeEntryRegs s l).pc = s.pc := by
  induction l generalizing s with
  | nil => rfl
  | cons p rest ih => exact (ih _).trans (writeReg_pc ..)

@[simp] theorem writeEntryRegs_dirty (s : State) (l : List (RegIdx × Word)) : (writeEntryRegs s l).dirty = s.dirty := by
  induction l generalizing s with
  | nil => rfl
  | cons p rest ih => exact (ih _).trans (writeReg_dirty ..)

@[simp] theorem writeEntryRegs_mem (s : State) (l : List (RegIdx × Word)) : (writeEntryRegs s l).mem = s.mem := by
  induction l generalizing s with
  | nil => rfl
  | cons p rest ih => exact (ih _).trans (writeReg_mem ..)

/-- After a list of writes a register other than 0 reads as the last value written to it, or as before (R14). -/
theorem readReg_writeEntryRegs (s : State) (l : List (RegIdx × Word)) {r : RegIdx} (hr : r ≠ 0) :
    (writeEntryRegs s l).readReg r
      = ((l.reverse.find? (fun p => decide (p.1 = r))).map Prod.snd).getD (s.readReg r) := by
  induction l generalizing s with
  | nil => rfl
  | cons p rest ih =>
    obtain ⟨i, v⟩ := p
    rw [writeEntryRegs, ih, List.reverse_cons, List.find?_append, readReg_writeReg]
    cases rest.reverse.find? (fun p => decide (p.1 = r)) with
    | some q => rfl
    | none =>
      by_cases hi : i = r
      · subst hi; simp [hr]
      · simp [hi, Ne.symm hi]

/-- The state of R223 just before the host writes ENTRY_REGS holds nothing of the state it started from. -/
theorem boot_eq_launch (s : State) (image : Memory) (entryPc : Word) (entryRegs : List (RegIdx × Word)) :
    s.boot image entryPc entryRegs = State.launch image entryPc entryRegs := rfl

/-- Settles O54: the sequence ends with the register writes, on a state whose registers `reset()` has made 0. -/
theorem bootLeavesTheLaunchPremise : Obligations.BootLeavesTheLaunchPremise := by
  refine fun s image entryPc entryRegs => ⟨boot_eq_launch .., writeEntryRegs_pc .., readReg_zero _, fun r hr => ?_,
    writeEntryRegs_dirty .., writeEntryRegs_mem ..⟩
  rw [State.boot, readReg_writeEntryRegs _ _ hr, readReg_setPc, readReg_resetCommand]

/-! ## The host's load of one word -/

theorem tableWord_toNat (w : Word) : tableWord 32 w.toNat = w := by
  rw [tableWord, Nat.mod_eq_of_lt w.isLt, BitVec.ofNat_toNat, BitVec.setWidth_eq]

@[simp] theorem fetchable_regs (s : State) : s.fetchable.regs = s.regs := by
  unfold State.fetchable
  split <;> rfl

theorem fetchable_of_inRange {s : State} (h : s.pc.toNat + 4 ≤ s.mem.size) : s.fetchable = s :=
  if_pos ((inRange_iff ..).2 h)

/-- Placing a word where the fetch is in range is a four-byte `MemWrite` at `pc` (R45). -/
theorem write_placeAtPc {s : State} (h : s.pc.toNat + 4 ≤ s.mem.size) (w : Word) :
    s.mem.write s.pc .word w = some (s.placeAtPc w).mem :=
  (write_eq_some_iff ..).2 ⟨h, rfl⟩

/-- A word placed where the fetch is in range is fetched (R43, R47). -/
theorem fetch_placeAtPc {s : State} (h : s.pc.toNat + 4 ≤ s.mem.size) (w : Word) : (s.placeAtPc w).fetch = some w := by
  have hw := write_placeAtPc h w
  obtain ⟨-, -, hsize, -⟩ := write_spec hw
  have hback := assemble_write hw (k := 0) (n := .word) (Nat.zero_add _).le
  refine (read_eq_some_iff ..).2 ⟨hsize.symm ▸ h, BitVec.eq_of_toNat_eq (Eq.symm (hback.trans ?_))⟩
  rw [pow_zero, Nat.div_one]
  exact Nat.mod_eq_of_lt w.isLt

/-- Settles O58: the word is written where the enlarged buffer lets it be fetched, and neither step of the load touches a
register. -/
theorem placedWordIsTheNextFetched : Obligations.PlacedWordIsTheNextFetched := by
  intro s w
  rw [State.withFetchWord, tableWord_toNat]
  refine ⟨fetch_placeAtPc (fetchable_inRange s) w, readReg_congr (fetchable_regs s), fun hin => ?_⟩
  rw [fetchable_of_inRange hin]
  rfl

end Sys2Proof.Machine
